-- ==== Sys2Proof/Word.lean ====
section
/-! DEFINITION. The word types of the CRC check core: 64-bit register values, octets and REG headers. -/

namespace Sys2Proof

/-- A 64-bit register value or DATA word (R9, R22, R92). -/
abbrev Word := BitVec 64

/-- One octet of a PDU (R13). -/
abbrev Byte := BitVec 8

/-- The 8-bit header H of a REG-port operation (R91). -/
abbrev Header := BitVec 8

end Sys2Proof
end

