-- ==== Sys2Proof/Config.lean ====
section
/-! DEFINITION. The two parameters the spec leaves OPEN: P_MAX_PDU_BYTES (R7) and Meta (R8). -/

namespace Sys2Proof

/-- P_MAX_PDU_BYTES, the largest PDU length in bytes that channel IN delivers (R7, D14).
It has no body: nothing proved of the model can rest on a value of it (log entry 1). -/
opaque Config.maxPduBytes : Nat

/-- Which labels stand for a value of Meta (R8, D15). It has no body: nothing proved of the model can
rest on how many values Meta has, or on which (log entry 2). -/
opaque Config.isMeta : Nat → Bool

/-- The opaque metadata carried with each PDU (R8, D15): a type the spec leaves OPEN, as a type whose
values no proof can count. DESIGN CHOICE (log entry 2, safe): it has a value m0, with label 0, and it is
countable, since State is plain data. No operation of the model reads a value of it. -/
structure Meta where
  label : Nat
  legal : label = 0 ∨ Config.isMeta label = true
  deriving DecidableEq, Repr

/-- The value that the label `m0` stands for (R110). -/
def Meta.m0 : Meta := { label := 0, legal := .inl rfl }

end Sys2Proof
end

