-- ==== Sys2Proof/Syntax.lean ====
section
/-! DEFINITION. The operations of the block: one constructor for each row of the opcode table (R97). -/

namespace Sys2Proof

/-- A PDU message: the pair (BYTES, META). LEN is the length of BYTES (R38, R96). -/
structure Message where
  bytes : List Byte
  info  : Meta
  deriving DecidableEq, Repr

/-- The seventeen operations of R97. The one immediate of a REG write is DATA, used exactly as
written (R93). WR_STATUS keeps its discarded DATA, so that no bit of an encoding is dropped. -/
inductive Instr where
  /-- RD_NUM_BITS, R181. -/
  | rdNumBits
  /-- RD_POLY, R182. -/
  | rdPoly
  /-- RD_INIT, R183. -/
  | rdInit
  /-- RD_XOROUT, R184. -/
  | rdXorout
  /-- RD_FLAGS, R185. -/
  | rdFlags
  /-- RD_SKIP, R186. -/
  | rdSkip
  /-- RD_CMD, R187. -/
  | rdCmd
  /-- RD_STATUS, R188. -/
  | rdStatus
  /-- WR_NUM_BITS, R190. -/
  | wrNumBits (data : Word)
  /-- WR_POLY, R191. -/
  | wrPoly (data : Word)
  /-- WR_INIT, R192. -/
  | wrInit (data : Word)
  /-- WR_XOROUT, R193. -/
  | wrXorout (data : Word)
  /-- WR_FLAGS, R194. -/
  | wrFlags (data : Word)
  /-- WR_SKIP, R195. -/
  | wrSkip (data : Word)
  /-- CONSTRUCT, R196: the write of DATA = 1 to CMD. -/
  | construct
  /-- WR_STATUS, R198. -/
  | wrStatus (data : Word)
  /-- SUBMIT, R150: the check of the PDU message at the head of IN. -/
  | submit (pdu : Message)
  deriving DecidableEq, Repr

end Sys2Proof
end

