-- ==== Sys2Proof/WellFormed.lean ====
section
/-! DEFINITION. The check on an operation's operands. -/

namespace Sys2Proof

/-- A PDU message is legal when LEN is at most P_MAX_PDU_BYTES, the empty one included (R96, R108). -/
def Message.wellFormed (m : Message) : Bool :=
  decide (m.bytes.length ≤ Config.maxPduBytes)

/-- Every 64-bit DATA is legal in a write (R107). The one operand with a check is SUBMIT's message. -/
def Instr.wellFormed : Instr → Bool
  | .rdNumBits | .rdPoly | .rdInit | .rdXorout | .rdFlags | .rdSkip | .rdCmd | .rdStatus => true
  | .wrNumBits _ | .wrPoly _ | .wrInit _ | .wrXorout _ | .wrFlags _ | .wrSkip _ => true
  | .construct => true
  | .wrStatus _ => true
  | .submit m => m.wellFormed

end Sys2Proof
end

