-- ==== Sys2Proof/Decode.lean ====
section
/-! DEFINITION. The two operation formats (R90), the decoder (R98, R215) and the encoder (R91, R97). -/

namespace Sys2Proof

/-- What a host agent hands to the block, in one of the two formats of R90. The model works at
transaction level (D1): a REG operation is a header with a DATA word, a PDU is a message. A read
has no DATA of its own: it is the response, and the decoder ignores the word (R98). -/
inductive Frame where
  /-- An operation on the register port: header H and DATA (R91, R92). -/
  | reg (header : Header) (data : Word)
  /-- A message offered on channel IN (R96). -/
  | pdu (m : Message)
  deriving DecidableEq, Repr

/-- Why the model gives an operation no meaning: the three reasons of R215. -/
inductive Reject where
  | reservedHeader
  | reservedCommand
  | pduTooLong
  deriving DecidableEq, Repr

/-- A decoder returns a named operation or a named refusal (R98). -/
inductive Decoded where
  | instr (i : Instr)
  | reject (r : Reject)
  deriving DecidableEq, Repr

/-- Field RW, bit [7] of the header: 1 is a write (R91). -/
def Header.rw (h : Header) : Bool := h.getLsbD 7

/-- Field RSVD, bits [6:3] of the header (R91). -/
def Header.rsvd (h : Header) : BitVec 4 := h.extractLsb' 3 4

/-- Field IDX, bits [2:0] of the header: the register index (R91, R22). -/
def Header.idx (h : Header) : BitVec 3 := h.extractLsb' 0 3

/-- The read of register IDX: rows 0x00 to 0x07 of R97. -/
def readOf (idx : BitVec 3) : Instr :=
  match idx.toNat with
  | 0 => .rdNumBits
  | 1 => .rdPoly
  | 2 => .rdInit
  | 3 => .rdXorout
  | 4 => .rdFlags
  | 5 => .rdSkip
  | 6 => .rdCmd
  | _ => .rdStatus

/-- The write of register IDX: rows 0x80 to 0x87 of R97. A write to CMD is CONSTRUCT for DATA = 1
and a reserved command for any other DATA (R106). -/
def writeOf (idx : BitVec 3) (data : Word) : Decoded :=
  match idx.toNat with
  | 0 => .instr (.wrNumBits data)
  | 1 => .instr (.wrPoly data)
  | 2 => .instr (.wrInit data)
  | 3 => .instr (.wrXorout data)
  | 4 => .instr (.wrFlags data)
  | 5 => .instr (.wrSkip data)
  | 6 => if data = 1 then .instr .construct else .reject .reservedCommand
  | _ => .instr (.wrStatus data)

/-- The decoder of the REG port, total on (H, DATA): the reserved bits are tested before anything
else, and DATA is looked at only for IDX = 6 writes (R98, R104, R216). -/
def decodeReg (h : Header) (data : Word) : Decoded :=
  if h.rsvd ≠ 0 then .reject .reservedHeader
  else if h.rw then writeOf h.idx data
  else .instr (readOf h.idx)

/-- The decoder of channel IN: every message of at most P_MAX_PDU_BYTES bytes is a SUBMIT (R97,
R108), and a longer one is refused when it is offered (R215). -/
def decodePdu (m : Message) : Decoded :=
  if m.wellFormed then .instr (.submit m) else .reject .pduTooLong

/-- The decoder, total on both formats. -/
def decode : Frame → Decoded
  | .reg h data => decodeReg h data
  | .pdu m => decodePdu m

/-- A header from its fields RW and IDX, with RSVD = 0000 (R91). -/
def headerOf (rw : Bool) (idx : BitVec 3) : Header :=
  (BitVec.ofBool rw ++ (0#4 ++ idx)).cast (by decide)

/-- A read's frame. Its DATA is the response, so the frame carries 0 there (R92). -/
def readFrame (idx : BitVec 3) : Frame := .reg (headerOf false idx) 0

/-- A write's frame (R92). -/
def writeFrame (idx : BitVec 3) (data : Word) : Frame := .reg (headerOf true idx) data

/-- The encoder, from the rows of R97 and the register indices of R22. -/
def encode : Instr → Frame
  | .rdNumBits => readFrame 0
  | .rdPoly => readFrame 1
  | .rdInit => readFrame 2
  | .rdXorout => readFrame 3
  | .rdFlags => readFrame 4
  | .rdSkip => readFrame 5
  | .rdCmd => readFrame 6
  | .rdStatus => readFrame 7
  | .wrNumBits v => writeFrame 0 v
  | .wrPoly v => writeFrame 1 v
  | .wrInit v => writeFrame 2 v
  | .wrXorout v => writeFrame 3 v
  | .wrFlags v => writeFrame 4 v
  | .wrSkip v => writeFrame 5 v
  | .construct => writeFrame 6 1
  | .wrStatus v => writeFrame 7 v
  | .submit m => .pdu m

/-- A frame with the word a read does not carry set to 0: two frames with the same canonical form
carry the same operation (R98: "For a read, DATA is the response and not an input"). -/
def Frame.canonical : Frame → Frame
  | .reg h data => .reg h (if h.rw then data else 0)
  | .pdu m => .pdu m

/-- The REG frame whose bits are `w` in the numbering of the opcode table: bits [7:0] are the
header and bits [71:8] are DATA. DESIGN CHOICE (log entry 7): the spec gives DATA as one number
with no byte order (R62), so its bits follow the header's in order of significance. -/
def tableFrame (nbits w : Nat) : Frame :=
  .reg (BitVec.ofNat 8 (w % 2 ^ nbits)) (BitVec.ofNat 64 (w % 2 ^ nbits / 256))

/-- What the decoder reads from an operation whose bits are `w`, numbered as the opcode table
numbers them. Every bit above `nbits` is 0. A PDU has no word (R95), so no word is a SUBMIT. -/
def decodeTableWord (nbits w : Nat) : Option Instr :=
  match decode (tableFrame nbits w) with
  | .instr i => some i
  | .reject _ => none

end Sys2Proof
end

