-- ==== Sys2Proof/Machine/State.lean ====
section
/-! DEFINITION. The state of one block instance (R20), the reasons a step can stop, and the state
right after power-on (R43, R242). -/

namespace Sys2Proof.Machine

/-- STATE, the lifecycle state (R32). Code 3 is never produced, so it has no constructor. -/
inductive Lifecycle where
  | unconfigured
  | ready
  | configError
  deriving DecidableEq, Repr

/-- CAUSE, why a construction failed (R33). Codes 4 to 15 are never produced. -/
inductive Cause where
  | none
  | numBitsNotMultipleOf8
  | numBitsOutOfRange
  | flagsReservedNonzero
  deriving DecidableEq, Repr

/-- The six registers that store a configuration, IDX 0 to 5 of R22. CMD (IDX 6) stores nothing
(R30) and STATUS (IDX 7) is computed from STATE and CAUSE (R31), so neither is a field. -/
structure CfgRegs where
  /-- CFG_NUM_BITS, R24. -/
  numBits : Word
  /-- CFG_POLY, R25. -/
  poly : Word
  /-- CFG_INIT, R26. -/
  init : Word
  /-- CFG_XOROUT, R27. -/
  xorout : Word
  /-- CFG_FLAGS, R28. -/
  flags : Word
  /-- CFG_SKIP, R29. -/
  skip : Word
  deriving DecidableEq, Repr

/-- The names of the registers IDX 0 to 5 (R22). -/
inductive CfgReg where
  | numBits
  | poly
  | init
  | xorout
  | flags
  | skip
  deriving DecidableEq, Repr

/-- One atomic step that the scheduler gives to an agent (R20, R217, R252). -/
inductive Move where
  /-- The configuring host issues a REG-port operation (R180). -/
  | reg (header : Header) (data : Word)
  /-- The upstream offers a message to channel IN (R37, R215). -/
  | append (m : Message)
  /-- The block checks the message at the head of IN (R150). -/
  | check
  /-- The downstream removes the head of OK (R252). -/
  | removeOk
  /-- The downstream removes the head of FAIL (R252). -/
  | removeFail
  /-- The reset source asserts RESET (R240). -/
  | reset
  deriving DecidableEq, Repr

/-- The state of one block instance, the tuple (REGS, STATE, IN, OK, FAIL) of R20, with two fields
of the model's own: `responses` (log entry 3) and `moves` (log entry 4). -/
structure State where
  /-- REGS: the registers IDX 0 to 5 (R22). -/
  cfg : CfgRegs
  /-- STATE (R32), which STATUS[1:0] shows. -/
  lifecycle : Lifecycle
  /-- CAUSE (R33), which STATUS[7:4] shows. -/
  cause : Cause
  /-- Channel IN, head first (R37). -/
  inQ : List Message
  /-- Channel OK, head first (R37). -/
  okQ : List Message
  /-- Channel FAIL, head first (R37). -/
  failQ : List Message
  /-- The DATA words that reads have returned to the configuring host, oldest first (R92). -/
  responses : List Word
  /-- The agents' moves still to come, in the order the scheduler has chosen (R73, R217). -/
  moves : List Move
  deriving DecidableEq, Repr

/-- The reasons a step can end in a fault: none. The block raises no exception, trap or fault, and
the model has no fault outcome (R210, R213), so this type has no constructor. -/
inductive Fault where
  deriving DecidableEq, Repr

/-- The reasons a step can end in a refusal: the three of R215. -/
inductive Refusal where
  /-- For an operation that has no meaning yet. Raised by exec for no operation of this model. Safe. -/
  | notModelled (mnemonic : String)
  /-- RESERVED_HEADER: the configuring host issued a header with RSVD ≠ 0 (R104). Raised by the REG
  port when the operation is issued. Safe. -/
  | reservedHeader
  /-- RESERVED_COMMAND: the configuring host wrote DATA ≠ 1 to CMD (R106). Raised by the REG port
  when the operation is issued. Safe. -/
  | reservedCommand
  /-- PDU_TOO_LONG: the upstream offered a message longer than P_MAX_PDU_BYTES (R215). Raised by
  channel IN when the message is offered. Safe. -/
  | pduTooLong
  deriving DecidableEq, Repr

/-- The configuration registers after RESET: all 0 (R43). -/
def CfgRegs.reset : CfgRegs :=
  { numBits := 0, poly := 0, init := 0, xorout := 0, flags := 0, skip := 0 }

/-- The state after power-on: RESET with IN, OK and FAIL empty (R43, R242). No response has been
returned and no move is pending (DESIGN CHOICE, log entries 3 and 4). -/
def State.reset : State :=
  { cfg := CfgRegs.reset, lifecycle := .unconfigured, cause := .none,
    inQ := [], okQ := [], failQ := [], responses := [], moves := [] }

end Sys2Proof.Machine
end

