-- ==== Sys2Proof/Machine/Flags.lean ====
section
/-! DEFINITION. The flag bits of CFG_FLAGS (R28), the STATUS word (R31) and Validate (R197). The
block has no condition codes, and no operation sets a flag as a side effect (R36). -/

namespace Sys2Proof.Machine

/-- IN_REFL, bit [0] of CFG_FLAGS (R28). -/
def CfgRegs.inRefl (c : CfgRegs) : Bool := c.flags.getLsbD 0

/-- OUT_REFL, bit [1] of CFG_FLAGS (R28). -/
def CfgRegs.outRefl (c : CfgRegs) : Bool := c.flags.getLsbD 1

/-- SWAP_ENDIAN, bit [2] of CFG_FLAGS (R28). -/
def CfgRegs.swapEndian (c : CfgRegs) : Bool := c.flags.getLsbD 2

/-- DISCARD_CRC, bit [3] of CFG_FLAGS (R28). -/
def CfgRegs.discardCrc (c : CfgRegs) : Bool := c.flags.getLsbD 3

/-- RSVD, bits [63:4] of CFG_FLAGS (R28). -/
def CfgRegs.flagsRsvd (c : CfgRegs) : BitVec 60 := c.flags.extractLsb' 4 60

/-- The code of a lifecycle state (R32). -/
def Lifecycle.code : Lifecycle → Nat
  | .unconfigured => 0
  | .ready => 1
  | .configError => 2

/-- The code of a failure cause (R33). -/
def Cause.code : Cause → Nat
  | .none => 0
  | .numBitsNotMultipleOf8 => 1
  | .numBitsOutOfRange => 2
  | .flagsReservedNonzero => 3

/-- The STATUS word: CAUSE in bits [7:4], STATE in bits [1:0], every other bit 0 (R31, R188). -/
def statusWord (l : Lifecycle) (c : Cause) : Word :=
  (BitVec.ofNat 64 c.code <<< 4) ||| BitVec.ofNat 64 l.code

/-- Validate: the first cause that applies, or NONE (R197). The width is compared as an unsigned
number. -/
def validate (c : CfgRegs) : Cause :=
  if c.numBits.toNat % 8 ≠ 0 then .numBitsNotMultipleOf8
  else if c.numBits.toNat < 8 ∨ 64 < c.numBits.toNat then .numBitsOutOfRange
  else if c.flagsRsvd ≠ 0 then .flagsReservedNonzero
  else .none

end Sys2Proof.Machine
end

