-- ==== Sys2Proof/Machine/Operands.lean ====
section
/-! DEFINITION. The configured quantities of R35 and the operand forms of R12 to R14: bit reversal,
slices of a byte sequence, and the byte orders of a number. -/

namespace Sys2Proof.Machine

/-- W, the CRC width in bits: the value of CFG_NUM_BITS (R6, R35). -/
def CfgRegs.width (c : CfgRegs) : Nat := c.numBits.toNat

/-- TL, the trailer length in bytes: W / 8 (R6, R35). -/
def CfgRegs.trailerLen (c : CfgRegs) : Nat := c.width / 8

/-- SKIP, the number of header bytes, as an exact natural number (R29, R151). -/
def CfgRegs.skipLen (c : CfgRegs) : Nat := c.skip.toNat

/-- MASK = 2^w - 1 (R11, R35). -/
def mask (w : Nat) : Nat := 2 ^ w - 1

/-- `POLY & MASK`, as a value of W bits (R129). -/
def CfgRegs.polyW (c : CfgRegs) : BitVec c.width := c.poly.setWidth c.width

/-- `INIT & MASK`, as a value of W bits (R121). -/
def CfgRegs.initW (c : CfgRegs) : BitVec c.width := c.init.setWidth c.width

/-- `XOROUT & MASK`, as a value of W bits (R126). -/
def CfgRegs.xoroutW (c : CfgRegs) : BitVec c.width := c.xorout.setWidth c.width

/-- `rev_n(v)`: the bits of an n-bit value in reverse order (R12). -/
def rev {n : Nat} (v : BitVec n) : BitVec n := v.reverse

/-- `rev_n(v)` when the flag is set, and v itself when it is not. -/
def revIf {n : Nat} (flag : Bool) (v : BitVec n) : BitVec n := if flag then rev v else v

/-- `s[a:b]`, the bytes at indices a to b - 1 in order (R13). -/
def slice (s : List Byte) (a b : Nat) : List Byte := (s.take b).drop a

/-- `le(t)`: the first byte is the least significant (R14). -/
def le : List Byte → Nat
  | [] => 0
  | b :: t => b.toNat + 256 * le t

/-- `be(t)`: the first byte is the most significant (R14). -/
def be : List Byte → Nat
  | [] => 0
  | b :: t => b.toNat * 256 ^ t.length + be t

/-- `le_bytes_n(v)`: byte k is `v[8k+7 : 8k]` (R14). -/
def leBytes (n v : Nat) : List Byte :=
  (List.range n).map fun k => BitVec.ofNat 8 (v / 2 ^ (8 * k))

/-- `be_bytes_n(v)`: byte k is `v[8(n-1-k)+7 : 8(n-1-k)]` (R14). -/
def beBytes (n v : Nat) : List Byte :=
  (List.range n).map fun k => BitVec.ofNat 8 (v / 2 ^ (8 * (n - 1 - k)))

/-- The trailer read as a number in the configured byte order (R64, R155). -/
def CfgRegs.readTrailer (c : CfgRegs) (t : List Byte) : Nat :=
  if c.swapEndian then le t else be t

/-- A CRC written as a trailer of TL bytes in the configured byte order (R164). -/
def CfgRegs.writeTrailer (c : CfgRegs) (crc : Nat) : List Byte :=
  if c.swapEndian then leBytes c.trailerLen crc else beBytes c.trailerLen crc

end Sys2Proof.Machine
end

