-- ==== Sys2Proof/Machine/Ops.lean ====
section
/-! DEFINITION. The named operations over the registers and the channels. The block has no
addressable memory (R60) and takes no exception (R210, R219), so there is no operation for either. -/

namespace Sys2Proof.Machine

/-- The refusal for a decoder's reason (R215). -/
def Refusal.ofReject : Reject → Refusal
  | .reservedHeader => .reservedHeader
  | .reservedCommand => .reservedCommand
  | .pduTooLong => .pduTooLong

/-- `R[NAME]` for a register IDX 0 to 5 (R15, R22). -/
def CfgRegs.get (c : CfgRegs) : CfgReg → Word
  | .numBits => c.numBits
  | .poly => c.poly
  | .init => c.init
  | .xorout => c.xorout
  | .flags => c.flags
  | .skip => c.skip

/-- `R[NAME] <- v` for a register IDX 0 to 5: all 64 bits are stored (R15, R93). -/
def CfgRegs.set (c : CfgRegs) (r : CfgReg) (v : Word) : CfgRegs :=
  match r with
  | .numBits => { c with numBits := v }
  | .poly => { c with poly := v }
  | .init => { c with init := v }
  | .xorout => { c with xorout := v }
  | .flags => { c with flags := v }
  | .skip => { c with skip := v }

/-- STATUS as a read returns it (R31). -/
def State.status (s : State) : Word := statusWord s.lifecycle s.cause

/-- The REG port returns a DATA word to the configuring host (R92). No other part of the state
changes (R70). -/
def State.respond (s : State) (data : Word) : State :=
  { s with responses := s.responses ++ [data] }

/-- A read of a configuration register: the full 64 bits as written (R181 to R186). -/
def State.readCfg (s : State) (r : CfgReg) : State := s.respond (s.cfg.get r)

/-- CfgWrite: stored while STATE = UNCONFIGURED, and ignored in any other state (R189). -/
def State.cfgWrite (s : State) (r : CfgReg) (v : Word) : State :=
  if s.lifecycle = .unconfigured then { s with cfg := s.cfg.set r v } else s

/-- The result of a construction: STATE and CAUSE together (R196). -/
def State.setStatus (s : State) (l : Lifecycle) (c : Cause) : State :=
  { s with lifecycle := l, cause := c }

/-- The upstream appends a message at the tail of IN (R37). -/
def State.appendIn (s : State) (m : Message) : State := { s with inQ := s.inQ ++ [m] }

/-- `take IN`: the head of IN is removed (R15). -/
def State.takeIn (s : State) : State := { s with inQ := s.inQ.tail }

/-- `emit OK(m)`: the message is appended at the tail of OK (R15). -/
def State.emitOk (s : State) (m : Message) : State := { s with okQ := s.okQ ++ [m] }

/-- `emit FAIL(m)`: the message is appended at the tail of FAIL (R15). -/
def State.emitFail (s : State) (m : Message) : State := { s with failQ := s.failQ ++ [m] }

/-- The downstream removes the head of OK. There is nothing to remove from an empty channel (R252,
log entry 9). -/
def State.removeOk (s : State) : State := { s with okQ := s.okQ.tail }

/-- The downstream removes the head of FAIL (R252, log entry 9). -/
def State.removeFail (s : State) : State := { s with failQ := s.failQ.tail }

/-- RESET: every register and STATUS take their reset values, and IN, OK and FAIL keep their
contents (R240, R241). -/
def State.resetBlock (s : State) : State :=
  { s with cfg := CfgRegs.reset, lifecycle := .unconfigured, cause := .none }

/-- The scheduler's choice of the next move is used up. -/
def State.withMoves (s : State) (ms : List Move) : State := { s with moves := ms }

end Sys2Proof.Machine
end

