-- ==== Sys2Proof/Machine/Construct.lean ====
section
/-! DEFINITION. The meanings of CONSTRUCT (R196) and WR_STATUS (R198). -/

namespace Sys2Proof.Machine

/-- The STATE that a validation leads to: READY without a cause, CONFIG_ERROR with one (R196). -/
def Cause.outcome : Cause → Lifecycle
  | .none => .ready
  | .numBitsNotMultipleOf8 | .numBitsOutOfRange | .flagsReservedNonzero => .configError

/-- CONSTRUCT (R196): it validates once, in UNCONFIGURED, and does nothing in any other state. -/
def execConstruct (s : State) : Host.Outcome State Fault Refusal :=
  if s.lifecycle = .unconfigured then
    .next (s.setStatus (validate s.cfg).outcome (validate s.cfg))
  else .next s

/-- WR_STATUS (R198): STATUS is read-only, so DATA is discarded and nothing changes. -/
def execWrStatus (_data : Word) (s : State) : Host.Outcome State Fault Refusal := .next s

end Sys2Proof.Machine
end

