-- ==== Sys2Proof/Machine/RegReads.lean ====
section
/-! DEFINITION. The meanings of the eight reads, RD_NUM_BITS to RD_STATUS (R181 to R188). Each works
in every STATE and returns one DATA word. -/

namespace Sys2Proof.Machine

/-- RD_NUM_BITS (R181). -/
def execRdNumBits (s : State) : Host.Outcome State Fault Refusal := .next (s.readCfg .numBits)

/-- RD_POLY (R182): all 64 bits, those at W and above included. -/
def execRdPoly (s : State) : Host.Outcome State Fault Refusal := .next (s.readCfg .poly)

/-- RD_INIT (R183). -/
def execRdInit (s : State) : Host.Outcome State Fault Refusal := .next (s.readCfg .init)

/-- RD_XOROUT (R184). -/
def execRdXorout (s : State) : Host.Outcome State Fault Refusal := .next (s.readCfg .xorout)

/-- RD_FLAGS (R185): the reserved bits as they were written. -/
def execRdFlags (s : State) : Host.Outcome State Fault Refusal := .next (s.readCfg .flags)

/-- RD_SKIP (R186). -/
def execRdSkip (s : State) : Host.Outcome State Fault Refusal := .next (s.readCfg .skip)

/-- RD_CMD (R187): CMD stores nothing and reads 0. -/
def execRdCmd (s : State) : Host.Outcome State Fault Refusal := .next (s.respond 0)

/-- RD_STATUS (R188). -/
def execRdStatus (s : State) : Host.Outcome State Fault Refusal := .next (s.respond s.status)

end Sys2Proof.Machine
end

