-- ==== Sys2Proof/Machine/RegWrites.lean ====
section
/-! DEFINITION. The meanings of the six configuration writes, each a CfgWrite (R189 to R195). No
value is checked when it is written. -/

namespace Sys2Proof.Machine

/-- WR_NUM_BITS (R190). -/
def execWrNumBits (v : Word) (s : State) : Host.Outcome State Fault Refusal :=
  .next (s.cfgWrite .numBits v)

/-- WR_POLY (R191). -/
def execWrPoly (v : Word) (s : State) : Host.Outcome State Fault Refusal :=
  .next (s.cfgWrite .poly v)

/-- WR_INIT (R192). -/
def execWrInit (v : Word) (s : State) : Host.Outcome State Fault Refusal :=
  .next (s.cfgWrite .init v)

/-- WR_XOROUT (R193). -/
def execWrXorout (v : Word) (s : State) : Host.Outcome State Fault Refusal :=
  .next (s.cfgWrite .xorout v)

/-- WR_FLAGS (R194): the four flags and the reserved bits are written together. -/
def execWrFlags (v : Word) (s : State) : Host.Outcome State Fault Refusal :=
  .next (s.cfgWrite .flags v)

/-- WR_SKIP (R195). -/
def execWrSkip (v : Word) (s : State) : Host.Outcome State Fault Refusal :=
  .next (s.cfgWrite .skip v)

end Sys2Proof.Machine
end

