-- ==== Sys2Proof/Machine/Engine.lean ====
section
/-! DEFINITION. The CRC Engine: the bit-serial reference semantics of R120 to R126. The CRC register
is a value of exactly W bits (R40, R130), so `x & MASK` is reading x as W bits. It exists only
inside one computation, and no field of State holds it (R40). -/

namespace Sys2Proof.Machine

/-- `b << (W - 1)`: a data bit in the top position of the register (R124). -/
def topBit (w : Nat) (b : Bool) : BitVec w := (BitVec.ofBool b).setWidth w <<< (w - 1)

/-- BitStep: one data bit is mixed into the register (R124). -/
def bitStep {w : Nat} (poly reg : BitVec w) (b : Bool) : BitVec w :=
  let t := reg ^^^ topBit w b
  if t.msb then (t <<< 1) ^^^ poly else t <<< 1

/-- ByteStep: eight BitSteps, d[7] first and d[0] last (R125). -/
def byteStep {w : Nat} (poly reg : BitVec w) (d : Byte) : BitVec w :=
  [7, 6, 5, 4, 3, 2, 1, 0].foldl (fun r i => bitStep poly r (d.getLsbD i)) reg

/-- Step 2: the bytes in sequence order, each reflected first when the flag is set (R122, R123). -/
def feed {w : Nat} (poly : BitVec w) (inRefl : Bool) (reg : BitVec w) (bytes : List Byte) :
    BitVec w :=
  bytes.foldl (fun r b => byteStep poly r (revIf inRefl b)) reg

/-- The register after the last byte: steps 1 and 2 (R121, R122). -/
def CfgRegs.crcRegister (c : CfgRegs) (bytes : List Byte) : BitVec c.width :=
  feed c.polyW c.inRefl c.initW bytes

/-- Steps 3 to 5: the result reflection comes before the final XOR (R126). -/
def CfgRegs.finish (c : CfgRegs) (reg : BitVec c.width) : BitVec c.width :=
  revIf c.outRefl reg ^^^ c.xoroutW

/-- CrcCompute: a natural number below 2^W (R120). -/
def crcCompute (c : CfgRegs) (bytes : List Byte) : Nat :=
  (c.finish (c.crcRegister bytes)).toNat

end Sys2Proof.Machine
end

