-- ==== Sys2Proof/Machine/Validator.lean ====
section
/-! DEFINITION. The Frame Validator: the check of one PDU, and the meaning of SUBMIT (R150). -/

namespace Sys2Proof.Machine

/-- The two outcomes of a check (R150, R158). -/
inductive Verdict where
  /-- Accepted: the message to forward on OK. -/
  | accepted (fwd : Message)
  /-- Rejected: the original message, to forward on FAIL. -/
  | rejected (orig : Message)
  deriving DecidableEq, Repr

/-- Step 1: `L < SKIP + TL`, in exact arithmetic (R151, R152). -/
def CfgRegs.tooShort (c : CfgRegs) (pdu : List Byte) : Bool :=
  decide (pdu.length < c.skipLen + c.trailerLen)

/-- The CRC region `pdu[SKIP : L - TL]` (R153). -/
def CfgRegs.region (c : CfgRegs) (pdu : List Byte) : List Byte :=
  slice pdu c.skipLen (pdu.length - c.trailerLen)

/-- The trailer `pdu[L - TL : L]` (R155). -/
def CfgRegs.trailer (c : CfgRegs) (pdu : List Byte) : List Byte :=
  slice pdu (pdu.length - c.trailerLen) pdu.length

/-- `expected`: the CRC of the region (R154). -/
def CfgRegs.expected (c : CfgRegs) (pdu : List Byte) : Nat := crcCompute c (c.region pdu)

/-- `stored`: the trailer as a number in the configured byte order (R155). -/
def CfgRegs.stored (c : CfgRegs) (pdu : List Byte) : Nat := c.readTrailer (c.trailer pdu)

/-- The bytes forwarded on Accept (R157). -/
def CfgRegs.forwarded (c : CfgRegs) (pdu : List Byte) : List Byte :=
  if c.discardCrc then slice pdu 0 (pdu.length - c.trailerLen) else pdu

/-- Check: the length test comes first, then the comparison of the two numbers (R150, R152, R156).
The meta value is passed on unread (R160). -/
def checkPdu (c : CfgRegs) (m : Message) : Verdict :=
  if c.tooShort m.bytes then .rejected m
  else if c.expected m.bytes = c.stored m.bytes then
    .accepted { bytes := c.forwarded m.bytes, info := m.info }
  else .rejected m

/-- The verdict chooses the one channel that the message goes to (R158). -/
def State.route (s : State) : Verdict → State
  | .accepted fwd => s.emitOk fwd
  | .rejected orig => s.emitFail orig

/-- The check step is enabled when IN is non-empty and STATE = READY (R150). -/
def State.checkEnabled (s : State) : Bool := decide (s.lifecycle = .ready) && !s.inQ.isEmpty

/-- SUBMIT (R150): the message at the head of IN is taken, checked and routed in one atomic step. The
operand names it by its bytes alone, and its meta value is passed on unread (R8, R160). With STATE other
than READY, IN empty, or other bytes at the head of IN, the step is not enabled: the message waits and
nothing changes (R34, R214; the last case is log entry 8). -/
def execSubmit (m : Message) (s : State) : Host.Outcome State Fault Refusal :=
  match s.inQ with
  | [] => .next s
  | head :: _ =>
    if s.lifecycle = .ready ∧ head.bytes = m.bytes then
      .next (s.takeIn.route (checkPdu s.cfg head))
    else .next s

end Sys2Proof.Machine
end

