-- ==== Sys2Proof/Machine/Dispatch.lean ====
section
/-! DEFINITION. One arm for each operation of R97. -/

namespace Sys2Proof.Machine

def exec (i : Instr) (s : State) : Host.Outcome State Fault Refusal :=
  match i with
  | .rdNumBits => Sys2Proof.Machine.execRdNumBits s
  | .rdPoly => Sys2Proof.Machine.execRdPoly s
  | .rdInit => Sys2Proof.Machine.execRdInit s
  | .rdXorout => Sys2Proof.Machine.execRdXorout s
  | .rdFlags => Sys2Proof.Machine.execRdFlags s
  | .rdSkip => Sys2Proof.Machine.execRdSkip s
  | .rdCmd => Sys2Proof.Machine.execRdCmd s
  | .rdStatus => Sys2Proof.Machine.execRdStatus s
  | .wrNumBits v => Sys2Proof.Machine.execWrNumBits v s
  | .wrPoly v => Sys2Proof.Machine.execWrPoly v s
  | .wrInit v => Sys2Proof.Machine.execWrInit v s
  | .wrXorout v => Sys2Proof.Machine.execWrXorout v s
  | .wrFlags v => Sys2Proof.Machine.execWrFlags v s
  | .wrSkip v => Sys2Proof.Machine.execWrSkip v s
  | .construct => Sys2Proof.Machine.execConstruct s
  | .wrStatus v => Sys2Proof.Machine.execWrStatus v s
  | .submit m => Sys2Proof.Machine.execSubmit m s

end Sys2Proof.Machine
end

