-- ==== Sys2Proof/Machine/Moves.lean ====
section
/-! DEFINITION. The atomic steps of the agents (R20, R217): a REG-port operation, an append to IN, a
check, a removal from OK or FAIL, and RESET. -/

namespace Sys2Proof.Machine

/-- A REG-port operation (R180): it is decoded and, when it has a meaning, executed. It is enabled in
every STATE and never waits. -/
def issueReg (h : Header) (data : Word) (s : State) : Host.Outcome State Fault Refusal :=
  match decode (.reg h data) with
  | .instr i => exec i s
  | .reject r => .refused (Refusal.ofReject r)

/-- The upstream offers a message (R37, R215): it is decoded when it is offered, and a legal one goes
to the tail of IN, in any STATE. -/
def offerPdu (m : Message) (s : State) : Host.Outcome State Fault Refusal :=
  match decode (.pdu m) with
  | .instr _ => .next (s.appendIn m)
  | .reject r => .refused (Refusal.ofReject r)

/-- The block's check step (R150): the message at the head of IN is the SUBMIT operation that runs.
With IN empty the step is not enabled and nothing changes (R214, R227, log entry 5). -/
def checkHead (s : State) : Host.Outcome State Fault Refusal :=
  match s.inQ with
  | [] => .next s
  | m :: _ => exec (.submit m) s

/-- The move by which a host agent issues a frame: a REG operation on the port, a message on IN
(R90). -/
def moveOf : Frame → Move
  | .reg h data => .reg h data
  | .pdu m => .append m

/-- One agent's move. -/
def runMove (m : Move) (s : State) : Host.Outcome State Fault Refusal :=
  match m with
  | .reg h data => issueReg h data s
  | .append msg => offerPdu msg s
  | .check => checkHead s
  | .removeOk => .next s.removeOk
  | .removeFail => .next s.removeFail
  | .reset => .next s.resetBlock

end Sys2Proof.Machine
end

