-- ==== Sys2Proof/Machine/Step.lean ====
section
/-! DEFINITION. One atomic step of the block and its environment. -/

namespace Sys2Proof.Machine

/-- One step: the next move of the chosen schedule. When no move is pending, the block takes its
check step as long as it is enabled (R162, R256), and is idle otherwise (R227). -/
def step (s : State) : Host.Outcome State Fault Refusal :=
  match s.moves with
  | [] => checkHead s
  | m :: rest => runMove m (s.withMoves rest)

/-- `s` with the REG operation whose bits are `w` as the next move. The block fetches nothing (R66,
R79): an operation comes to run because a host agent issues it (R21, log entry 4). -/
def State.withFetchWord (s : State) (nbits w : Nat) : State :=
  s.withMoves (moveOf (tableFrame nbits w) :: s.moves)

end Sys2Proof.Machine
end

