-- ==== Sys2Proof/Machine/Assembly.lean ====
section
/-! DEFINITION. The host-operation assembly language (R110, R111): its operations, their expansion
into moves, its text, and the disassembler. The step does not use it. Text is a list of characters. -/

namespace Sys2Proof.Machine

/-- The register names of the language, in the order of IDX (R22, R110). -/
inductive AsmReg where
  | numBits
  | poly
  | init
  | xorout
  | flags
  | skip
  | cmd
  | status
  deriving DecidableEq, Repr

/-- The flag names of the language (R110). -/
inductive AsmFlag where
  | inRefl
  | outRefl
  | swapEndian
  | discardCrc
  deriving DecidableEq, Repr

/-- A written value: a number below 2^64, or the OR of named flag bits (R110). -/
inductive AsmValue where
  | number (v : Word)
  | flagset (fs : List AsmFlag)
  deriving DecidableEq, Repr

/-- One operation of a line (R110), the pseudo-instruction PRESET_CRC32 of R111 among them. A piece
of SUBMIT's bytes is kept as the octets it stands for, and a meta name as its characters. -/
inductive AsmOp where
  | rd (r : AsmReg)
  | wr (r : AsmReg) (v : AsmValue)
  | construct
  | submit (pieces : List (List Byte)) (metaName : List Char)
  | reset
  | presetCrc32
  deriving DecidableEq, Repr

/-! ### Meaning: the moves an operation stands for -/

/-- IDX(reg) (R22, R110). -/
def AsmReg.idx : AsmReg → BitVec 3
  | .numBits => 0
  | .poly => 1
  | .init => 2
  | .xorout => 3
  | .flags => 4
  | .skip => 5
  | .cmd => 6
  | .status => 7

/-- The register with index IDX. -/
def AsmReg.ofIdx (idx : BitVec 3) : AsmReg :=
  match idx.toNat with
  | 0 => .numBits
  | 1 => .poly
  | 2 => .init
  | 3 => .xorout
  | 4 => .flags
  | 5 => .skip
  | 6 => .cmd
  | _ => .status

/-- The bit of a flag (R28, R110). -/
def AsmFlag.bit : AsmFlag → Word
  | .inRefl => 0x1
  | .outRefl => 0x2
  | .swapEndian => 0x4
  | .discardCrc => 0x8

/-- The number a value stands for (R110). -/
def AsmValue.word : AsmValue → Word
  | .number v => v
  | .flagset fs => fs.foldl (fun acc f => acc ||| f.bit) 0

/-- The move that reads a register: H = 0x00 | IDX (R110). -/
def rdMove (r : AsmReg) : Move := .reg (headerOf false r.idx) 0

/-- The move that writes a register: H = 0x80 | IDX (R110). -/
def wrMove (r : AsmReg) (v : Word) : Move := .reg (headerOf true r.idx) v

/-- The moves of one operation, pseudo-instructions expanded (R110, R111). `names` gives the value
of Meta that a meta name stands for. -/
def AsmOp.assemble (names : List Char → Meta) : AsmOp → List Move
  | .rd r => [rdMove r]
  | .wr r v => [wrMove r v.word]
  | .construct => [wrMove .cmd 1]
  | .submit pieces metaName => [.append { bytes := pieces.flatten, info := names metaName }]
  | .reset => [.reset]
  | .presetCrc32 =>
    [wrMove .numBits 32, wrMove .poly 0x04C11DB7, wrMove .init 0xFFFFFFFF,
      wrMove .xorout 0xFFFFFFFF, wrMove .flags 0x3]

/-- The operation a disassembler shows for a REG frame: none for a refused one. A write of 1 to CMD
is CONSTRUCT, and every other one is RD reg or WR reg with the DATA word (R111). -/
def disassemble (h : Header) (data : Word) : Option AsmOp :=
  match decodeReg h data with
  | .reject _ => none
  | .instr .construct => some .construct
  | .instr _ =>
    if h.rw then some (.wr (AsmReg.ofIdx h.idx) (.number data))
    else some (.rd (AsmReg.ofIdx h.idx))

/-! ### Text: what the disassembler prints -/

/-- The name of a register (R110). -/
def AsmReg.name : AsmReg → List Char
  | .numBits => ['N', 'U', 'M', '_', 'B', 'I', 'T', 'S']
  | .poly => ['P', 'O', 'L', 'Y']
  | .init => ['I', 'N', 'I', 'T']
  | .xorout => ['X', 'O', 'R', 'O', 'U', 'T']
  | .flags => ['F', 'L', 'A', 'G', 'S']
  | .skip => ['S', 'K', 'I', 'P']
  | .cmd => ['C', 'M', 'D']
  | .status => ['S', 'T', 'A', 'T', 'U', 'S']

/-- The name of a flag (R110). -/
def AsmFlag.name : AsmFlag → List Char
  | .inRefl => ['I', 'N', '_', 'R', 'E', 'F', 'L']
  | .outRefl => ['O', 'U', 'T', '_', 'R', 'E', 'F', 'L']
  | .swapEndian => ['S', 'W', 'A', 'P', '_', 'E', 'N', 'D', 'I', 'A', 'N']
  | .discardCrc => ['D', 'I', 'S', 'C', 'A', 'R', 'D', '_', 'C', 'R', 'C']

/-- The hexadecimal digit of a value below 16. -/
def hexDigit (n : Nat) : Char := if n < 10 then Char.ofNat (48 + n) else Char.ofNat (55 + n)

/-- The last `n` hexadecimal digits of a number, the most significant first. -/
def hexDigits : Nat → Nat → List Char
  | 0, _ => []
  | n + 1, v => hexDigits n (v / 16) ++ [hexDigit (v % 16)]

/-- The text of a disassembled REG operation: `CONSTRUCT`, `RD reg` or `WR reg, 0x<16 hex digits>`
(R111). -/
def printReg (h : Header) (data : Word) : Option (List Char) :=
  match disassemble h data with
  | some .construct => some ['C', 'O', 'N', 'S', 'T', 'R', 'U', 'C', 'T']
  | some (.rd r) => some (['R', 'D', ' '] ++ r.name)
  | some (.wr r v) =>
    some (['W', 'R', ' '] ++ r.name ++ [',', ' ', '0', 'x'] ++ hexDigits 16 v.word.toNat)
  | _ => none

/-! ### Text: reading a line -/

/-- The tokens of a line. -/
inductive Tok where
  | word (cs : List Char)
  | ascii (cs : List Char)
  | comma
  | equals
  | plusPlus
  | lBrack
  | rBrack
  | lBrace
  | rBrace
  deriving DecidableEq, Repr

/-- Where the lexer stands: between tokens, inside a word, inside a quoted piece (both with the
characters read so far, last first), or after the first of two plus signs. -/
inductive LexMode where
  | plain
  | word (acc : List Char)
  | ascii (acc : List Char)
  | plus
  deriving DecidableEq, Repr

/-- The characters of keywords, register names, flag names, numbers and meta names. -/
def wordChar (c : Char) : Bool := c.isAlphanum || c == '_'

/-- What one character means between tokens: a token (if it is one by itself) and the next mode. -/
def lexPlain (c : Char) : Option (List Tok × LexMode) :=
  if wordChar c then some ([], .word [c])
  else if c = ' ' ∨ c = '\t' then some ([], .plain)
  else if c = '"' then some ([], .ascii [])
  else if c = '+' then some ([], .plus)
  else if c = ',' then some ([.comma], .plain)
  else if c = '=' then some ([.equals], .plain)
  else if c = '[' then some ([.lBrack], .plain)
  else if c = ']' then some ([.rBrack], .plain)
  else if c.toNat = 123 then some ([.lBrace], .plain)
  else if c.toNat = 125 then some ([.rBrace], .plain)
  else none

/-- The tokens of a line. A semicolon outside a quoted piece starts a comment, which ends the line
(R110). -/
def lex : LexMode → List Char → Option (List Tok)
  | .plain, [] => some []
  | .word acc, [] => some [.word acc.reverse]
  | .ascii _, [] => none
  | .plus, [] => none
  | .plain, c :: cs =>
    if c = ';' then some []
    else (lexPlain c).bind fun p => (lex p.2 cs).map (p.1 ++ ·)
  | .word acc, c :: cs =>
    if wordChar c then lex (.word (c :: acc)) cs
    else if c = ';' then some [.word acc.reverse]
    else (lexPlain c).bind fun p => (lex p.2 cs).map (.word acc.reverse :: p.1 ++ ·)
  | .ascii acc, c :: cs =>
    if c = '"' then (lex .plain cs).map (.ascii acc.reverse :: ·)
    else if c.toNat < 128 then lex (.ascii (c :: acc)) cs
    else none
  | .plus, c :: cs => if c = '+' then (lex .plain cs).map (.plusPlus :: ·) else none

/-- The value of a decimal digit. -/
def decValue (c : Char) : Option Nat :=
  if 48 ≤ c.toNat ∧ c.toNat ≤ 57 then some (c.toNat - 48) else none

/-- The value of a hexadecimal digit, in either case of letter (log entry 10). -/
def hexValue (c : Char) : Option Nat :=
  if 48 ≤ c.toNat ∧ c.toNat ≤ 57 then some (c.toNat - 48)
  else if 65 ≤ c.toNat ∧ c.toNat ≤ 70 then some (c.toNat - 55)
  else if 97 ≤ c.toNat ∧ c.toNat ≤ 102 then some (c.toNat - 87)
  else none

/-- The number with the given digits, most significant first, after the digits read so far. -/
def readDigits (base : Nat) (value : Char → Option Nat) : Nat → List Char → Option Nat
  | acc, [] => some acc
  | acc, c :: cs => (value c).bind fun d => readDigits base value (base * acc + d) cs

/-- A number of at most 64 bits: hexadecimal after 0x, else decimal (R110). -/
def readNumber : List Char → Option Word
  | '0' :: 'x' :: d :: ds =>
    (readDigits 16 hexValue 0 (d :: ds)).bind fun n =>
      if n < 2 ^ 64 then some (BitVec.ofNat 64 n) else none
  | d :: ds =>
    (readDigits 10 decValue 0 (d :: ds)).bind fun n =>
      if n < 2 ^ 64 then some (BitVec.ofNat 64 n) else none
  | [] => none

/-- The register a name stands for. -/
def readReg (w : List Char) : Option AsmReg :=
  [AsmReg.numBits, .poly, .init, .xorout, .flags, .skip, .cmd, .status].find? fun r => r.name = w

/-- The flag a name stands for. -/
def readFlag (w : List Char) : Option AsmFlag :=
  [AsmFlag.inRefl, .outRefl, .swapEndian, .discardCrc].find? fun f => f.name = w

/-- The rest of a flag set after its first flag: comma and flag pairs, then the closing brace. -/
def readFlagsRest : List Tok → Option (List AsmFlag)
  | [.rBrace] => some []
  | .comma :: .word w :: rest =>
    (readFlag w).bind fun f => (readFlagsRest rest).map (f :: ·)
  | _ => none

/-- The inside of a flag set, which may be empty (R110). -/
def readFlags : List Tok → Option (List AsmFlag)
  | [.rBrace] => some []
  | .word w :: rest => (readFlag w).bind fun f => (readFlagsRest rest).map (f :: ·)
  | _ => none

/-- The value of a WR line (R110). -/
def readValue : List Tok → Option AsmValue
  | [.word w] => (readNumber w).map .number
  | .lBrace :: rest => (readFlags rest).map .flagset
  | _ => none

/-- One hexbyte of a bracketed piece. The grammar of R110 does not define the token. DESIGN CHOICE (log
entry 10): exactly two hexadecimal digits, as a token of their own. -/
def readHexByte : List Char → Option Byte
  | [a, b] => (readDigits 16 hexValue 0 [a, b]).map (BitVec.ofNat 8)
  | _ => none

/-- The tokens after SUBMIT: pieces joined by ++, then an optional meta name (R110). The first
argument holds the octets of the open bracketed piece, if one is open. -/
def readPieces : Option (List Byte) → List Tok → Option (List (List Byte) × List Char)
  | some acc, .word w :: rest => (readHexByte w).bind fun b => readPieces (some (acc ++ [b])) rest
  | some acc, [.rBrack] => some ([acc], ['m', '0'])
  | some acc, .rBrack :: .plusPlus :: .lBrack :: rest =>
    (readPieces (some []) rest).map fun p => (acc :: p.1, p.2)
  | some acc, .rBrack :: .plusPlus :: .ascii cs :: rest =>
    (readPieces none (.ascii cs :: rest)).map fun p => (acc :: p.1, p.2)
  | some acc, [.rBrack, .comma, .word k, .equals, .word name] =>
    if k = ['m', 'e', 't', 'a'] then some ([acc], name) else none
  | none, .lBrack :: rest => readPieces (some []) rest
  | none, [.ascii cs] => some ([cs.map fun c => BitVec.ofNat 8 c.toNat], ['m', '0'])
  | none, .ascii cs :: .plusPlus :: rest =>
    (readPieces none rest).map fun p => ((cs.map fun c => BitVec.ofNat 8 c.toNat) :: p.1, p.2)
  | none, [.ascii cs, .comma, .word k, .equals, .word name] =>
    if k = ['m', 'e', 't', 'a'] then
      some ([cs.map fun c => BitVec.ofNat 8 c.toNat], name)
    else none
  | _, _ => none

/-- One operation from its tokens (R110). -/
def readOp : List Tok → Option AsmOp
  | [.word k] =>
    if k = ['C', 'O', 'N', 'S', 'T', 'R', 'U', 'C', 'T'] then some .construct
    else if k = ['R', 'E', 'S', 'E', 'T'] then some .reset
    else if k = ['P', 'R', 'E', 'S', 'E', 'T', '_', 'C', 'R', 'C', '3', '2'] then some .presetCrc32
    else none
  | .word k :: rest =>
    if k = ['R', 'D'] then
      match rest with
      | [.word r] => (readReg r).map .rd
      | _ => none
    else if k = ['W', 'R'] then
      match rest with
      | .word r :: .comma :: v => (readReg r).bind fun r => (readValue v).map (.wr r)
      | _ => none
    else if k = ['S', 'U', 'B', 'M', 'I', 'T'] then
      (readPieces none rest).map fun p => .submit p.1 p.2
    else none
  | _ => none

/-- A line: no operation, or one, and an optional comment (R110). The outer option is none for a
text that is no line of the language. -/
def readLine (text : List Char) : Option (Option AsmOp) :=
  (lex .plain text).bind fun toks =>
    match toks with
    | [] => some none
    | toks => (readOp toks).map some

/-- The moves of a program, line by line (R110). -/
def assembleText (names : List Char → Meta) : List (List Char) → Option (List Move)
  | [] => some []
  | line :: rest =>
    (readLine line).bind fun op =>
      (assembleText names rest).map fun ms => ((op.map (AsmOp.assemble names)).getD []) ++ ms

end Sys2Proof.Machine
end

