-- ==== Sys2Proof/Machine/EngineForms.lean ====
section
/-! DEFINITION. Three other ways to compute a CRC: the reference semantics of R120 on natural
numbers, word for word, and two datapaths the spec allows, the table form (R134) and the
right-shifting form (R135). No operation of the model uses them (R41): they are here so that their
agreement with the engine can be stated (R127). -/

namespace Sys2Proof.Machine

/-- `rev_n(v)` on natural numbers: bit i of the result is bit n - 1 - i of v (R12). -/
def natRev (n v : Nat) : Nat :=
  ((List.range n).map fun i => (v.testBit (n - 1 - i)).toNat * 2 ^ i).sum

/-- BitStep on natural numbers (R124). -/
def natBitStep (W POLY reg : Nat) (b : Bool) : Nat :=
  let t := reg ^^^ (b.toNat <<< (W - 1))
  let r := (t <<< 1) &&& mask W
  if t.testBit (W - 1) then r ^^^ (POLY &&& mask W) else r

/-- ByteStep on natural numbers: bits 7 down to 0 of the octet (R125). -/
def natByteStep (W POLY reg d : Nat) : Nat :=
  [7, 6, 5, 4, 3, 2, 1, 0].foldl (fun r i => natBitStep W POLY r (d.testBit i)) reg

/-- CrcCompute on natural numbers: steps 1 to 5 of R120. -/
def natCrcCompute (W POLY INIT XOROUT : Nat) (inRefl outRefl : Bool) (bytes : List Nat) : Nat :=
  let reg := bytes.foldl
    (fun r b => natByteStep W POLY r (if inRefl then natRev 8 b else b)) (INIT &&& mask W)
  let reg := if outRefl then natRev W reg else reg
  (reg ^^^ (XOROUT &&& mask W)) &&& mask W

/-- `T[x]`: eight BitSteps with data bit 0, starting from x in the top byte (R134). -/
def crcTable {w : Nat} (poly : BitVec w) (x : Byte) : BitVec w :=
  byteStep poly (x.setWidth w <<< (w - 8)) 0

/-- ByteStep by table look-up (R134). -/
def tableByteStep {w : Nat} (poly reg : BitVec w) (d : Byte) : BitVec w :=
  (reg <<< 8) ^^^ crcTable poly (reg.extractLsb' (w - 8) 8 ^^^ d)

/-- One shift of the right-shifting register, with the reversed polynomial (R135). -/
def rightBitStep {w : Nat} (polyRev q : BitVec w) : BitVec w :=
  if q.getLsbD 0 then (q >>> 1) ^^^ polyRev else q >>> 1

/-- One byte of the right-shifting register: the byte is mixed into the low bits, then eight shifts
follow (R135). -/
def rightByteStep {w : Nat} (polyRev q : BitVec w) (b : Byte) : BitVec w :=
  (List.range 8).foldl (fun r _ => rightBitStep polyRev r) (q ^^^ b.setWidth w)

/-- The right-shifting engine of R135, for IN_REFL = OUT_REFL = 1. -/
def crcRightShift (c : CfgRegs) (bytes : List Byte) : Nat :=
  (bytes.foldl (rightByteStep (rev c.polyW)) (rev c.initW) ^^^ c.xoroutW).toNat

end Sys2Proof.Machine
end

