-- ==== Sys2Proof/Safety.lean ====
section
/-! DEFINITION. The terms in which claims about runs are stated: when a run is over or stuck, the
clean entry, the invariant of the block, and what a schedule of moves hands to IN. -/

namespace Sys2Proof.Machine

/-- `k` steps of the machine, ending at the first refusal. -/
def run (k : Nat) (s : State) : Host.Outcome State Fault Refusal := Sys2Proof.core.run k s

/-- The refusal mark (R215): the reason for which the model refuses to go on. A refused operation is
not taken from the schedule, so the mark stays for the rest of the run (log entry 6). -/
def State.refusalMark (s : State) : Option Refusal :=
  match step s with
  | .refused r => some r
  | .next _ | .fault _ => none

/-- A REG-port operation. -/
def Move.isReg : Move → Bool
  | .reg _ _ => true
  | .append _ | .check | .removeOk | .removeFail | .reset => false

/-- A run is over: no refusal mark, IN empty, and no REG-port operation pending (R254). -/
def State.Over (s : State) : Prop :=
  s.refusalMark = none ∧ s.inQ = [] ∧ s.moves.all (fun m => !m.isReg) = true

/-- A stuck state: a message waits in IN and STATE is not READY (R214, R254). -/
def State.Stuck (s : State) : Prop := s.inQ ≠ [] ∧ s.lifecycle ≠ .ready

/-- The reset state with messages in IN and a program placed in the schedule (log entry 4). -/
def entryWith (pdus : List Message) (moves : List Move) : State :=
  { State.reset with inQ := pdus, moves := moves }

/-- The clean entry of a run (R255): the reset state, OK and FAIL empty with it, with the PDUs under
study in IN, each of a legal length (R38), and no refusal mark. -/
structure State.CleanEntry (s : State) : Prop where
  starts : s = entryWith s.inQ s.moves
  in_bound : ∀ m ∈ s.inQ, m.bytes.length ≤ Config.maxPduBytes
  no_mark : s.refusalMark = none

/-- The invariant of the block: CAUSE is NONE exactly when STATE is not CONFIG_ERROR (R33), the
configuration of a READY instance has passed validation (R6, R196), and no channel holds a message
longer than P_MAX_PDU_BYTES (R38). -/
structure State.Inv (s : State) : Prop where
  cause_iff : s.cause ≠ .none ↔ s.lifecycle = .configError
  ready_valid : s.lifecycle = .ready → validate s.cfg = .none
  in_bound : ∀ m ∈ s.inQ, m.bytes.length ≤ Config.maxPduBytes
  ok_bound : ∀ m ∈ s.okQ, m.bytes.length ≤ Config.maxPduBytes
  fail_bound : ∀ m ∈ s.failQ, m.bytes.length ≤ Config.maxPduBytes

/-- A move that the model gives a meaning: anything but the three cases of R215. -/
def Move.Defined : Move → Prop
  | .reg h data => ∃ i, decode (.reg h data) = .instr i
  | .append m => m.bytes.length ≤ Config.maxPduBytes
  | .check | .removeOk | .removeFail | .reset => True

/-- The message that a move hands to IN, if it is an append. -/
def Move.appended : Move → Option Message
  | .append m => some m
  | .reg _ _ | .check | .removeOk | .removeFail | .reset => none

/-- The messages accepted from a sequence, as they are forwarded, in order. -/
def acceptedOf (c : CfgRegs) (ms : List Message) : List Message :=
  ms.filterMap fun m =>
    match checkPdu c m with
    | .accepted fwd => some fwd
    | .rejected _ => none

/-- The messages rejected from a sequence, in order. -/
def rejectedOf (c : CfgRegs) (ms : List Message) : List Message :=
  ms.filterMap fun m =>
    match checkPdu c m with
    | .accepted _ => none
    | .rejected orig => some orig

/-- The six configuration writes and the values of a configuration (R244). -/
def configWrites (c : CfgRegs) : List Move :=
  ([.wrNumBits c.numBits, .wrPoly c.poly, .wrInit c.init, .wrXorout c.xorout, .wrFlags c.flags,
    .wrSkip c.skip] : List Instr).map fun i => moveOf (encode i)

/-- The move that issues CONSTRUCT. -/
def constructMove : Move := moveOf (encode .construct)

/-- A message with its metadata renamed. -/
def Message.mapMeta (f : Meta → Meta) (m : Message) : Message := { m with info := f m.info }

/-- A move with its metadata renamed. -/
def Move.mapMeta (f : Meta → Meta) : Move → Move
  | .append m => .append (Message.mapMeta f m)
  | .reg h data => .reg h data
  | .check => .check
  | .removeOk => .removeOk
  | .removeFail => .removeFail
  | .reset => .reset

/-- A state with all its metadata renamed. -/
def State.mapMeta (f : Meta → Meta) (s : State) : State :=
  { s with
    inQ := s.inQ.map (Message.mapMeta f)
    okQ := s.okQ.map (Message.mapMeta f)
    failQ := s.failQ.map (Message.mapMeta f)
    moves := s.moves.map (Move.mapMeta f) }

/-- An outcome with its next state changed. -/
def mapNext (g : State → State) :
    Host.Outcome State Fault Refusal → Host.Outcome State Fault Refusal
  | .next s => .next (g s)
  | .fault r => .fault r
  | .refused r => .refused r

end Sys2Proof.Machine
end

