-- ==== Sys2Proof/Certificates/Slice0/Obligations.lean ====
section
/-! DEFINITION. The statements for the provers. -/

open Sys2Proof Sys2Proof.Machine

/-! ### Reset -/

/-- R43, R242: the state after power-on. -/
def Obligations.PowerOnStateIsResetWithEmptyChannels : Prop :=
  State.reset.cfg = ⟨0, 0, 0, 0, 0, 0⟩ ∧
  State.reset.lifecycle = .unconfigured ∧ State.reset.cause = .none ∧
  State.reset.inQ = [] ∧ State.reset.okQ = [] ∧ State.reset.failQ = [] ∧
  State.reset.status = 0

/-- R240, R241: RESET in any state sets the registers and STATUS to their reset values and keeps IN,
OK and FAIL, and no other step changes the configuration or STATUS of a block that has left
UNCONFIGURED. `moves` holds the moves still to come (log entry 4). That RESET leaves the rest of it, and
`responses`, is the model's choice (log entry 13). -/
def Obligations.ResetIsTheOnlyWayOut : Prop :=
  (∀ (s : State) (rest : List Move), s.moves = .reset :: rest →
    step s = .next { s with
      cfg := ⟨0, 0, 0, 0, 0, 0⟩, lifecycle := .unconfigured, cause := .none, moves := rest }) ∧
  (∀ s t : State, step s = .next t → s.lifecycle ≠ .unconfigured →
    (∀ rest, s.moves ≠ .reset :: rest) →
    t.cfg = s.cfg ∧ t.lifecycle = s.lifecycle ∧ t.cause = s.cause)

/-! ### Reads -/

/-- R181 to R186: the six configuration reads return the full 64 bits of their register, in every
STATE, and change nothing but the responses given to the host, which are the model's own record of
the returned DATA words (log entry 3). -/
def Obligations.ConfigReadsReturnWholeRegisters : Prop :=
  ∀ s : State,
    exec .rdNumBits s = .next { s with responses := s.responses ++ [s.cfg.numBits] } ∧
    exec .rdPoly s = .next { s with responses := s.responses ++ [s.cfg.poly] } ∧
    exec .rdInit s = .next { s with responses := s.responses ++ [s.cfg.init] } ∧
    exec .rdXorout s = .next { s with responses := s.responses ++ [s.cfg.xorout] } ∧
    exec .rdFlags s = .next { s with responses := s.responses ++ [s.cfg.flags] } ∧
    exec .rdSkip s = .next { s with responses := s.responses ++ [s.cfg.skip] }

/-- R187: a read of CMD returns 0 in every STATE. The returned DATA is recorded in the model's own
field `responses` (log entry 3). -/
def Obligations.CmdReadsZero : Prop :=
  ∀ s : State, exec .rdCmd s = .next { s with responses := s.responses ++ [0] }

/-- R188: a read of STATUS returns CAUSE * 16 + STATE (recorded in `responses`, log entry 3), and the
values a host can observe, over all schedules from the power-on state (log entry 4), are exactly 0x00,
0x01, 0x12, 0x22 and 0x32. -/
def Obligations.StatusReadAndItsFiveValues : Prop :=
  (∀ s : State, exec .rdStatus s = .next { s with responses := s.responses ++
    [BitVec.ofNat 64 (s.cause.code * 16 + s.lifecycle.code)] }) ∧
  (∀ v : Word,
    (∃ (ms : List Move) (k : Nat) (t : State),
      run k (State.reset.withMoves ms) = .next t ∧ t.status = v) ↔
    v ∈ [0x00#64, 0x01#64, 0x12#64, 0x22#64, 0x32#64])

/-- R31: the fields of the STATUS word. A write of it has no effect. -/
def Obligations.StatusWordFields : Prop :=
  ∀ s : State,
    (s.status.extractLsb' 0 2).toNat = s.lifecycle.code ∧
    s.status.extractLsb' 2 2 = 0 ∧
    (s.status.extractLsb' 4 4).toNat = s.cause.code ∧
    s.status.extractLsb' 8 56 = 0 ∧
    ∀ v : Word, exec (.wrStatus v) s = .next s

/-- R70: a read changes no state of the block, and the same read twice in a row returns the same
DATA. The model's own record of responses is the one field that grows. -/
def Obligations.ReadsChangeNoBlockState : Prop :=
  ∀ (i : Instr) (s : State),
    i ∈ [Instr.rdNumBits, .rdPoly, .rdInit, .rdXorout, .rdFlags, .rdSkip, .rdCmd, .rdStatus] →
    ∃ (v : Word) (t u : State), exec i s = .next t ∧ exec i t = .next u ∧
      t = { s with responses := s.responses ++ [v] } ∧
      u = { s with responses := s.responses ++ [v, v] }

/-! ### Writes -/

/-- R189 (and R190 to R195): while STATE = UNCONFIGURED a configuration write stores all 64 bits in
its own register and changes nothing else, and in any other STATE it is ignored. -/
def Obligations.ConfigWritesStoreOnlyWhileUnconfigured : Prop :=
  ∀ (s : State) (v : Word),
    (s.lifecycle = .unconfigured →
      exec (.wrNumBits v) s = .next { s with cfg := { s.cfg with numBits := v } } ∧
      exec (.wrPoly v) s = .next { s with cfg := { s.cfg with poly := v } } ∧
      exec (.wrInit v) s = .next { s with cfg := { s.cfg with init := v } } ∧
      exec (.wrXorout v) s = .next { s with cfg := { s.cfg with xorout := v } } ∧
      exec (.wrFlags v) s = .next { s with cfg := { s.cfg with flags := v } } ∧
      exec (.wrSkip v) s = .next { s with cfg := { s.cfg with skip := v } }) ∧
    (s.lifecycle ≠ .unconfigured →
      exec (.wrNumBits v) s = .next s ∧ exec (.wrPoly v) s = .next s ∧
      exec (.wrInit v) s = .next s ∧ exec (.wrXorout v) s = .next s ∧
      exec (.wrFlags v) s = .next s ∧ exec (.wrSkip v) s = .next s)

/-- R198: WR_STATUS is the header 0x87 with any DATA, and it changes nothing, in every STATE. -/
def Obligations.StatusWriteHasNoEffect : Prop :=
  ∀ (s : State) (v : Word),
    decode (.reg 0x87#8 v) = .instr (.wrStatus v) ∧ exec (.wrStatus v) s = .next s

/-- R190 to R195, R181 to R186, over the encodings of R97: in UNCONFIGURED, a write of register i
followed by a read of register j returns the written word when i = j, and otherwise what a read of
j returned before. The schedule and the responses are the model's own fields (log entries 3, 4). -/
def Obligations.WriteThenReadBack : Prop :=
  ∀ (s : State) (i j : BitVec 3) (v : Word), s.lifecycle = .unconfigured →
    i.toNat < 6 →
    ∃ (t u : State) (old new : Word),
      run 1 (s.withMoves [.reg (headerOf false j) 0]) = .next t ∧
      t.responses = s.responses ++ [old] ∧
      run 2 (s.withMoves [.reg (headerOf true i) v, .reg (headerOf false j) 0]) = .next u ∧
      u.responses = s.responses ++ [new] ∧
      new = if i = j then v else old

/-- R105: RD_CMD and WR_STATUS are the only operations that change no state of the block and answer
alike in every state: RD_CMD with 0, WR_STATUS with no response. -/
def Obligations.OnlyTwoOperationsAreNoOpsInEveryState : Prop :=
  ∀ i : Instr,
    (∃ vs : List Word, ∀ s : State, exec i s = .next { s with responses := s.responses ++ vs }) ↔
      i = .rdCmd ∨ ∃ v, i = .wrStatus v

/-! ### Construction -/

/-- R197: the first cause that applies, by the order of the tests. -/
def Obligations.ValidateReturnsTheFirstCause : Prop :=
  ∀ c : CfgRegs,
    (validate c = .numBitsNotMultipleOf8 ↔ ¬ 8 ∣ c.numBits.toNat) ∧
    (validate c = .numBitsOutOfRange ↔
      8 ∣ c.numBits.toNat ∧ (c.numBits.toNat < 8 ∨ 64 < c.numBits.toNat)) ∧
    (validate c = .flagsReservedNonzero ↔
      8 ∣ c.numBits.toNat ∧ 8 ≤ c.numBits.toNat ∧ c.numBits.toNat ≤ 64 ∧
        16 ≤ c.flags.toNat) ∧
    (validate c = .none ↔
      8 ∣ c.numBits.toNat ∧ 8 ≤ c.numBits.toNat ∧ c.numBits.toNat ≤ 64 ∧
        c.flags.toNat < 16)

/-- R196: CONSTRUCT is the header 0x86 with DATA = 1. It validates in UNCONFIGURED and does nothing in
any other STATE. -/
def Obligations.ConstructValidatesOnce : Prop :=
  decode (.reg 0x86#8 1) = .instr .construct ∧
  ∀ s : State,
    (s.lifecycle = .unconfigured → validate s.cfg = .none →
      exec .construct s = .next { s with lifecycle := .ready, cause := .none }) ∧
    (s.lifecycle = .unconfigured → validate s.cfg ≠ .none →
      exec .construct s =
        .next { s with lifecycle := .configError, cause := validate s.cfg }) ∧
    (s.lifecycle ≠ .unconfigured → exec .construct s = .next s)

/-- R24, R6: the widths and flags with which a construction succeeds. -/
def Obligations.ConstructSucceedsForEightWidths : Prop :=
  ∀ s : State, s.lifecycle = .unconfigured →
    ((∃ t, exec .construct s = .next t ∧ t.lifecycle = .ready) ↔
      s.cfg.numBits ∈ [8#64, 16#64, 24#64, 32#64, 40#64, 48#64, 56#64, 64#64] ∧
      ∀ i, 4 ≤ i → s.cfg.flags.getLsbD i = false)

/-- R244: after power-on, the six configuration writes in any order and then CONSTRUCT give the
written configuration and the STATUS of its validation. The schedule is the model's own field (log
entry 4). -/
def Obligations.BootWritesInAnyOrderThenConstruct : Prop :=
  ∀ (c : CfgRegs) (ms : List Move), ms.Perm (configWrites c) →
    ∃ t, run 7 (State.reset.withMoves (ms ++ [constructMove])) = .next t ∧
      t.cfg = c ∧ t.cause = validate c ∧
      t.lifecycle = (if validate c = .none then .ready else .configError) ∧ t.moves = []

/-! ### The CRC Engine -/

/-- R124: BitStep on natural numbers, for every width the block can have. -/
def Obligations.BitStepFollowsItsFormula : Prop :=
  ∀ (w : Nat) (poly reg : BitVec w) (b : Bool), 1 ≤ w →
    (bitStep poly reg b).toNat =
      (let t := reg.toNat ^^^ (b.toNat <<< (w - 1))
       let r := (t <<< 1) &&& (2 ^ w - 1)
       if t / 2 ^ (w - 1) % 2 = 1 then r ^^^ (poly.toNat &&& (2 ^ w - 1)) else r)

/-- R120: the engine of the model and the reference semantics on natural numbers give the same
result, and it is below 2^W. -/
def Obligations.EngineRefinesReferenceSemantics : Prop :=
  ∀ (c : CfgRegs) (bytes : List Byte), validate c = .none →
    crcCompute c bytes =
      natCrcCompute c.numBits.toNat c.poly.toNat c.init.toNat c.xorout.toNat
        (c.flags.getLsbD 0) (c.flags.getLsbD 1) (bytes.map BitVec.toNat) ∧
    crcCompute c bytes < 2 ^ c.numBits.toNat

/-- R132: the CRC of the empty sequence. -/
def Obligations.EmptyInputReflectsInit : Prop :=
  ∀ c : CfgRegs, crcCompute c [] =
    ((if c.outRefl then rev (c.init.setWidth c.width) else c.init.setWidth c.width) ^^^
      c.xorout.setWidth c.width).toNat

/-- R133: with `POLY & MASK = 0` a data bit never reaches the register, and the result depends on the
length of the input alone. Such a configuration is as legal as any other. -/
def Obligations.ZeroPolynomialSeesOnlyTheLength : Prop :=
  ∀ c : CfgRegs, 1 ≤ c.width → c.polyW = 0 →
    (∀ (reg : BitVec c.width) (b : Bool), bitStep c.polyW reg b = reg <<< 1) ∧
    (∀ bytes : List Byte, crcCompute c bytes =
      (revIf c.outRefl (c.initW <<< (8 * bytes.length)) ^^^ c.xoroutW).toNat) ∧
    (∀ bytes : List Byte, c.width ≤ 8 * bytes.length → crcCompute c bytes = c.xoroutW.toNat) ∧
    (∀ p : Word, validate { c with poly := p } = validate c)

/-- R128, and the masking of R121, R126 and R129: the engine reads only W, `POLY & MASK`,
`INIT & MASK`, `XOROUT & MASK` and the two reflection flags. -/
def Obligations.EngineReadsOnlyMaskedValues : Prop :=
  ∀ (c d : CfgRegs) (bytes : List Byte), c.numBits = d.numBits →
    c.poly.toNat &&& mask c.width = d.poly.toNat &&& mask d.width →
    c.init.toNat &&& mask c.width = d.init.toNat &&& mask d.width →
    c.xorout.toNat &&& mask c.width = d.xorout.toNat &&& mask d.width →
    c.inRefl = d.inRefl → c.outRefl = d.outRefl →
    crcCompute c bytes = crcCompute d bytes

/-- R134: the table form of ByteStep. -/
def Obligations.TableFormEqualsByteStep : Prop :=
  ∀ (w : Nat) (poly reg : BitVec w) (d : Byte), 8 ≤ w →
    tableByteStep poly reg d = byteStep poly reg d

/-- R135: the right-shifting register holds the reversed register of the engine at every byte
boundary, and gives the same result. -/
def Obligations.RightShiftFormEqualsEngine : Prop :=
  ∀ (c : CfgRegs) (bytes : List Byte), 8 ≤ c.width → c.inRefl = true → c.outRefl = true →
    bytes.foldl (rightByteStep (rev c.polyW)) (rev c.initW) = rev (c.crcRegister bytes) ∧
    crcRightShift c bytes = crcCompute c bytes

/-- R136: the CRC of the bytewise exclusive OR of two sequences of equal length. -/
def Obligations.CrcIsAffine : Prop :=
  ∀ (c : CfgRegs) (a b : List Byte), a.length = b.length →
    crcCompute c (List.zipWith (· ^^^ ·) a b) =
      crcCompute c a ^^^ crcCompute c b ^^^ crcCompute c (List.replicate a.length 0)

/-- R137: flipping bit j of byte k changes the CRC exactly when `POLY & MASK ≠ 0`. -/
def Obligations.SingleBitFlipChangesCrc : Prop :=
  ∀ (c : CfgRegs) (bytes : List Byte) (k j : Nat), validate c = .none →
    k < bytes.length → j < 8 →
    (crcCompute c (bytes.modify k (fun b => b ^^^ (1#8 <<< j))) ≠ crcCompute c bytes ↔
      c.polyW ≠ 0)

/-! ### SUBMIT -/

/-- R168, R152: in READY, a message shorter than SKIP + TL goes to FAIL as it is. -/
def Obligations.ShortPduGoesToFailUnmodified : Prop :=
  ∀ (s : State) (m : Message) (rest : List Message), s.lifecycle = .ready → s.inQ = m :: rest →
    m.bytes.length < s.cfg.skip.toNat + s.cfg.numBits.toNat / 8 →
    exec (.submit m) s = .next { s with inQ := rest, failQ := s.failQ ++ [m] }

/-- R156, R157 (and R150, R153 to R155, R159): in READY, a message of at least SKIP + TL bytes is
accepted exactly when its trailer, read in the configured byte order, equals the CRC of its region. An
accepted one goes to OK, without the trailer when DISCARD_CRC = 1, and any other goes to FAIL as it
is, whatever DISCARD_CRC is. -/
def Obligations.TrailerDecidesTheChannel : Prop :=
  ∀ (s : State) (m : Message) (rest : List Message), s.lifecycle = .ready → s.inQ = m :: rest →
    let L := m.bytes.length
    let skip := s.cfg.skip.toNat
    let tl := s.cfg.numBits.toNat / 8
    skip + tl ≤ L →
    let expected := crcCompute s.cfg ((m.bytes.drop skip).take (L - skip - tl))
    let trailer := m.bytes.drop (L - tl)
    let stored := if s.cfg.flags.getLsbD 2 then le trailer else be trailer
    let fwd := if s.cfg.flags.getLsbD 3 = true then m.bytes.take (L - tl) else m.bytes
    (expected = stored → exec (.submit m) s = .next { s with
      inQ := rest, okQ := s.okQ ++ [{ bytes := fwd, info := m.info }] }) ∧
    (expected ≠ stored → exec (.submit m) s = .next { s with
      inQ := rest, failQ := s.failQ ++ [m] })

/-- R167, R132: a message of length exactly SKIP + TL is checked against the CRC of no bytes, which
includes the reflection of INIT when OUT_REFL = 1. The OK message of an accepted one with
DISCARD_CRC = 1 holds exactly the SKIP header bytes (R150). -/
def Obligations.EmptyRegionIsCheckedAgainstEmptyCrc : Prop :=
  ∀ (s : State) (m : Message) (rest : List Message), s.lifecycle = .ready → s.inQ = m :: rest →
    m.bytes.length = s.cfg.skip.toNat + s.cfg.numBits.toNat / 8 →
    let trailer := m.bytes.drop s.cfg.skip.toNat
    let stored := if s.cfg.flags.getLsbD 2 then le trailer else be trailer
    let empty := ((if s.cfg.outRefl then rev (s.cfg.init.setWidth s.cfg.width)
      else s.cfg.init.setWidth s.cfg.width) ^^^ s.cfg.xorout.setWidth s.cfg.width).toNat
    let fwd := if s.cfg.flags.getLsbD 3 = true then m.bytes.take s.cfg.skip.toNat else m.bytes
    (stored = empty → exec (.submit m) s = .next { s with
      inQ := rest, okQ := s.okQ ++ [{ bytes := fwd, info := m.info }] }) ∧
    (stored ≠ empty → exec (.submit m) s = .next { s with
      inQ := rest, failQ := s.failQ ++ [m] })

/-- R29, R151: when SKIP + TL exceeds the largest length P of a message, whatever number P is, every
message goes to FAIL, and such a SKIP is no configuration error. The sum is exact: a SKIP near 2^64 does not wrap. -/
def Obligations.OversizedSkipRejectsEveryPdu : Prop :=
  (∀ (P : Nat) (s : State) (m : Message) (rest : List Message), s.lifecycle = .ready →
    s.inQ = m :: rest → m.bytes.length ≤ P →
    P < s.cfg.skip.toNat + s.cfg.numBits.toNat / 8 →
    exec (.submit m) s = .next { s with inQ := rest, failQ := s.failQ ++ [m] }) ∧
  (∀ (c : CfgRegs) (v : Word), validate { c with skip := v } = validate c)

/-- R214, R34: with STATE other than READY, or IN empty, the check step is not enabled: it changes
nothing, which is how the model shows a wait (log entry 5). That SUBMIT waits too when the bytes at the
head of IN are not those of its operand is the model's reading (log entry 8). -/
def Obligations.CheckWaitsUnlessEnabled : Prop :=
  (∀ (s : State) (rest : List Move), s.lifecycle ≠ .ready ∨ s.inQ = [] →
    s.moves = .check :: rest → step s = .next { s with moves := rest }) ∧
  (∀ s : State, s.lifecycle ≠ .ready ∨ s.inQ = [] → s.moves = [] → step s = .next s) ∧
  (∀ (s : State) (m : Message),
    s.lifecycle ≠ .ready ∨ s.inQ.head?.map Message.bytes ≠ some m.bytes →
    exec (.submit m) s = .next s)

/-- R158, R160 (and R36, R67): every enabled check takes the head of IN and puts one message at the
tail of exactly one channel: an accepted one on OK, with a prefix of the bytes, a rejected one on
FAIL, unchanged. The meta value is the one taken, and no register changes. -/
def Obligations.CheckRoutesToExactlyOneChannel : Prop :=
  ∀ (s : State) (m : Message) (rest : List Message), s.lifecycle = .ready → s.inQ = m :: rest →
    ∃ out : Message, out.info = m.info ∧ out.bytes <+: m.bytes ∧
      (checkPdu s.cfg m = .accepted out ∧
          exec (.submit m) s = .next { s with inQ := rest, okQ := s.okQ ++ [out] } ∨
        checkPdu s.cfg m = .rejected out ∧ out = m ∧
          exec (.submit m) s = .next { s with inQ := rest, failQ := s.failQ ++ [out] })

/-- R14: the byte strings of a number read back as the number, in both orders, and reading a string
and writing the number again gives the string. -/
def Obligations.TrailerBytesReadBack : Prop :=
  (∀ n v : Nat, v < 256 ^ n →
    (leBytes n v).length = n ∧ (beBytes n v).length = n ∧
    le (leBytes n v) = v ∧ be (beBytes n v) = v) ∧
  (∀ t : List Byte, le t < 256 ^ t.length ∧ be t < 256 ^ t.length ∧
    leBytes t.length (le t) = t ∧ beBytes t.length (be t) = t)

/-- R164: a payload with its own CRC appended, in the configured byte order, is accepted, and a
payload shorter than the header is rejected. -/
def Obligations.RoundTripIsAccepted : Prop :=
  ∀ (s : State) (p : List Byte) (info : Meta) (rest : List Message),
    validate s.cfg = .none → s.lifecycle = .ready →
    let t := s.cfg.writeTrailer (crcCompute s.cfg (p.drop s.cfg.skipLen))
    let m : Message := { bytes := p ++ t, info := info }
    s.inQ = m :: rest →
    (s.cfg.skipLen ≤ p.length →
      exec (.submit m) s = .next { s with
        inQ := rest
        okQ := s.okQ ++ [{ bytes := if s.cfg.discardCrc then p else p ++ t, info := info }] }) ∧
    (p.length < s.cfg.skipLen →
      exec (.submit m) s = .next { s with inQ := rest, failQ := s.failQ ++ [m] })

/-- R165: two messages of equal length that differ only below SKIP get the same outcome, and each is
forwarded with its own header. -/
def Obligations.HeaderBytesDoNotDecide : Prop :=
  ∀ (c : CfgRegs) (m n : Message), validate c = .none →
    m.bytes.length = n.bytes.length → m.bytes.drop c.skipLen = n.bytes.drop c.skipLen →
    (checkPdu c m = .rejected m ∧ checkPdu c n = .rejected n) ∨
    (∃ a b : List Byte,
      checkPdu c m = .accepted { m with bytes := a } ∧
      checkPdu c n = .accepted { n with bytes := b } ∧
      a.take c.skipLen = m.bytes.take c.skipLen ∧ b.take c.skipLen = n.bytes.take c.skipLen ∧
      a.drop c.skipLen = b.drop c.skipLen)

/-- R166: one bit of an accepted message is flipped. In the header it stays accepted. In the trailer
it is rejected. In the CRC region it is rejected exactly when `POLY & MASK ≠ 0`. -/
def Obligations.SingleBitCorruptionIsDetected : Prop :=
  ∀ (c : CfgRegs) (m fwd : Message) (k j : Nat), validate c = .none →
    checkPdu c m = .accepted fwd → k < m.bytes.length → j < 8 →
    let n : Message := { m with bytes := m.bytes.modify k (fun b => b ^^^ (1#8 <<< j)) }
    (k < c.skipLen → ∃ fwd', checkPdu c n = .accepted fwd') ∧
    (m.bytes.length - c.trailerLen ≤ k → checkPdu c n = .rejected n) ∧
    (c.skipLen ≤ k → k < m.bytes.length - c.trailerLen →
      (checkPdu c n = .rejected n ↔ c.polyW ≠ 0))

/-- R169: with W = 8 the trailer is one byte, which reads the same in both orders, so SWAP_ENDIAN has
no effect on any outcome. -/
def Obligations.ByteOrderIrrelevantForOneByte : Prop :=
  ∀ (c : CfgRegs) (m : Message), c.numBits = 8 →
    c.trailerLen = 1 ∧ (∀ b : Byte, be [b] = le [b]) ∧
    checkPdu { c with flags := c.flags ^^^ 4 } m = checkPdu c m

/-- R170: a message whose trailer has the right CRC in the other byte order is rejected, unless the
trailer reads the same in both directions. -/
def Obligations.SwappedTrailerIsRejected : Prop :=
  ∀ (c : CfgRegs) (p : List Byte) (info : Meta), validate c = .none → c.skipLen ≤ p.length →
    let t := (c.writeTrailer (crcCompute c (p.drop c.skipLen))).reverse
    let m : Message := { bytes := p ++ t, info := info }
    checkPdu c m = .rejected m ↔ t.reverse ≠ t

/-! ### Decoding and encoding -/

/-- R97, R106: a word of each row of the opcode table decodes to its operation, a write of CMD with
DATA other than 1 is refused, and a message on IN is a SUBMIT. A sanity statement. -/
def Obligations.HeadersDecodeByTheTable : Prop :=
  ∀ (d : Word) (m : Message),
    decode (.reg 0b00000000#8 d) = .instr .rdNumBits ∧
    decode (.reg 0b00000001#8 d) = .instr .rdPoly ∧
    decode (.reg 0b00000010#8 d) = .instr .rdInit ∧
    decode (.reg 0b00000011#8 d) = .instr .rdXorout ∧
    decode (.reg 0b00000100#8 d) = .instr .rdFlags ∧
    decode (.reg 0b00000101#8 d) = .instr .rdSkip ∧
    decode (.reg 0b00000110#8 d) = .instr .rdCmd ∧
    decode (.reg 0b00000111#8 d) = .instr .rdStatus ∧
    decode (.reg 0b10000000#8 d) = .instr (.wrNumBits d) ∧
    decode (.reg 0b10000001#8 d) = .instr (.wrPoly d) ∧
    decode (.reg 0b10000010#8 d) = .instr (.wrInit d) ∧
    decode (.reg 0b10000011#8 d) = .instr (.wrXorout d) ∧
    decode (.reg 0b10000100#8 d) = .instr (.wrFlags d) ∧
    decode (.reg 0b10000101#8 d) = .instr (.wrSkip d) ∧
    decode (.reg 0b10000110#8 1) = .instr .construct ∧
    (d ≠ 1 → decode (.reg 0b10000110#8 d) = .reject .reservedCommand) ∧
    decode (.reg 0b10000111#8 d) = .instr (.wrStatus d) ∧
    (m.bytes.length ≤ Config.maxPduBytes → decode (.pdu m) = .instr (.submit m))

/-- R104: the reserved headers are those with H[6:3] ≠ 0, whatever DATA is, and they are 240 of the
256 header values. -/
def Obligations.ReservedHeadersAreRefused : Prop :=
  (∀ (h : Header) (d : Word),
    decode (.reg h d) = .reject .reservedHeader ↔ h.toNat / 8 % 16 ≠ 0) ∧
  ((List.range 256).filter fun n =>
    decide (decode (.reg (BitVec.ofNat 8 n) 1) = .reject .reservedHeader)).length = 240

/-- R97, R98: decoding and encoding agree, in both directions: a frame decodes to i exactly when i is
well formed and the frame, less the word a read does not carry, is the encoding of i. -/
def Obligations.DecodeExactlyInvertsEncode : Prop :=
  ∀ (f : Frame) (i : Instr),
    decode f = .instr i ↔ i.wellFormed = true ∧ f.canonical = encode i

/-- R110, R111: what the disassembler shows for a REG frame is shown exactly for the frames with a
meaning, and assembles to that frame again. -/
def Obligations.DisassemblyAssemblesBack : Prop :=
  ∀ (h : Header) (d : Word) (names : List Char → Meta),
    ((disassemble h d = none) ↔ ∃ r, decode (.reg h d) = .reject r) ∧
    (∀ op, disassemble h d = some op →
      op.assemble names = [moveOf (Frame.canonical (.reg h d))])

/-- R111: the text that the disassembler prints is a line of the language, and it assembles to the
frame it was printed for. -/
def Obligations.PrintedTextReadsBack : Prop :=
  ∀ (h : Header) (d : Word) (names : List Char → Meta) (text : List Char),
    printReg h d = some text →
    assembleText names [text] = some [moveOf (Frame.canonical (.reg h d))]

/-- R111: PRESET_CRC32 on an unconfigured block sets five registers and leaves SKIP. The
schedule is the model's own field (log entry 4). -/
def Obligations.PresetSetsFiveRegisters : Prop :=
  ∀ (s : State) (names : List Char → Meta), s.lifecycle = .unconfigured →
    run 5 (s.withMoves (AsmOp.presetCrc32.assemble names)) = .next { s with
      cfg := { s.cfg with
        numBits := 32, poly := 0x04C11DB7, init := 0xFFFFFFFF, xorout := 0xFFFFFFFF, flags := 3 }
      moves := [] }

/-! ### The step -/

/-- R180, R217, R162: what one step does: it runs the operation that the next move decodes to, and
with no move pending it runs the check of the head of IN (the model's choice, log entries 4, 5). That a
removal from an empty OK or FAIL changes nothing is the model's choice too (log entry 9). -/
def Obligations.StepRunsTheDecodedOperation : Prop :=
  (∀ (s : State) (h : Header) (d : Word) (i : Instr) (rest : List Move),
    s.moves = .reg h d :: rest → decode (.reg h d) = .instr i →
    step s = exec i { s with moves := rest }) ∧
  (∀ (s : State) (m : Message) (q : List Message) (rest : List Move),
    s.moves = .check :: rest → s.inQ = m :: q →
    step s = exec (.submit m) { s with moves := rest }) ∧
  (∀ (s : State) (m : Message) (q : List Message),
    s.moves = [] → s.inQ = m :: q → step s = exec (.submit m) s) ∧
  (∀ (s : State) (m : Message) (rest : List Move),
    s.moves = .append m :: rest → decode (.pdu m) = .instr (.submit m) →
    step s = .next { s with inQ := s.inQ ++ [m], moves := rest }) ∧
  (∀ (s : State) (rest : List Move), s.moves = .removeOk :: rest →
    step s = .next { s with okQ := s.okQ.tail, moves := rest }) ∧
  (∀ (s : State) (rest : List Move), s.moves = .removeFail :: rest →
    step s = .next { s with failQ := s.failQ.tail, moves := rest })

/-- R210, R162, R219: no operation faults, hangs or refuses: every one answers a next state, in every
state. And a step answers a next state exactly when its move has a meaning: a REG frame that decodes to
an operation, a message of at most P_MAX_PDU_BYTES bytes, and every check, removal and RESET, in every
STATE and whatever the channels hold. `moves` holds the moves still to come, and what a step does with
none and a removal from an empty channel are the model's choice (log entries 4, 5, 9). -/
def Obligations.EveryDefinedMoveAnswersANextState : Prop :=
  (∀ (i : Instr) (s : State), ∃ t, exec i s = .next t) ∧
  (∀ s : State, (∃ t, step s = .next t) ↔ ∀ m rest, s.moves = m :: rest → m.Defined)

/-- R215: a step is refused in exactly three cases, and a refusal lasts for the rest of the run. That the
cases are about the next entry of `moves`, the schedule, is the model's own (log entry 4), and so is that
a refusal lasts because a run ends at the first one, with no field for the mark (log entry 6). -/
def Obligations.RefusalInExactlyThreeCasesAndSticky : Prop :=
  (∀ (s : State) (r : Refusal), step s = .refused r ↔
    (∃ h d rest, s.moves = .reg h d :: rest ∧ h.extractLsb' 3 4 ≠ 0 ∧ r = .reservedHeader) ∨
    (∃ d rest, s.moves = .reg 0x86#8 d :: rest ∧ d ≠ 1 ∧ r = .reservedCommand) ∨
    (∃ m rest, s.moves = .append m :: rest ∧ Config.maxPduBytes < m.bytes.length ∧
      r = .pduTooLong)) ∧
  (∀ (s : State) (r : Refusal) (k j : Nat), run k s = .refused r → run (k + j) s = .refused r)

/-- R36, R70, R189, R196: the frame of every operation. A read changes only the responses, a
configuration write only its register, CONSTRUCT only STATE and CAUSE, WR_STATUS nothing, and SUBMIT
only the channels. -/
def Obligations.EveryOperationHasItsFrame : Prop :=
  ∀ (i : Instr) (s t : State), exec i s = .next t →
    t.moves = s.moves ∧
    ((∃ v, t = { s with responses := s.responses ++ [v] }) ∧
        i ∈ [Instr.rdNumBits, .rdPoly, .rdInit, .rdXorout, .rdFlags, .rdSkip, .rdCmd, .rdStatus] ∨
      t = { s with cfg := t.cfg } ∧
        (∃ v, i = .wrNumBits v ∧ t.cfg = { s.cfg with numBits := t.cfg.numBits } ∨
          i = .wrPoly v ∧ t.cfg = { s.cfg with poly := t.cfg.poly } ∨
          i = .wrInit v ∧ t.cfg = { s.cfg with init := t.cfg.init } ∨
          i = .wrXorout v ∧ t.cfg = { s.cfg with xorout := t.cfg.xorout } ∨
          i = .wrFlags v ∧ t.cfg = { s.cfg with flags := t.cfg.flags } ∨
          i = .wrSkip v ∧ t.cfg = { s.cfg with skip := t.cfg.skip } ∨
          i = .wrStatus v ∧ t.cfg = s.cfg) ∨
      t = { s with lifecycle := t.lifecycle, cause := t.cause } ∧ i = .construct ∨
      t = { s with inQ := t.inQ, okQ := t.okQ, failQ := t.failQ } ∧ ∃ m, i = .submit m)

/-! ### Invariants and runs -/

/-- The invariant holds at power-on. -/
def Obligations.InvariantHoldsAtReset : Prop := State.reset.Inv

/-- R33, R6, R38: every step keeps the invariant. -/
def Obligations.StepKeepsTheInvariant : Prop :=
  ∀ s t : State, s.Inv → step s = .next t → t.Inv

/-- R33, R6: along every run from power-on, CAUSE is non-zero exactly in CONFIG_ERROR, and the
configuration of a READY instance passes validation. The schedule is the model's own field (log entry
4). -/
def Obligations.EveryRunFromPowerOnKeepsCauseAndStateTogether : Prop :=
  ∀ (ms : List Move) (k : Nat) (t : State), run k (State.reset.withMoves ms) = .next t →
    (t.cause ≠ .none ↔ t.lifecycle = .configError) ∧
    (t.lifecycle = .ready → validate t.cfg = .none)

/-- R35, R34: along any run without RESET, a block that has left UNCONFIGURED keeps its
configuration, STATE and CAUSE. The schedule is the model's own field (log entry 4). -/
def Obligations.ConfigurationFrozenAlongRuns : Prop :=
  ∀ (k : Nat) (s t : State), s.lifecycle ≠ .unconfigured → .reset ∉ s.moves →
    run k s = .next t →
    t.cfg = s.cfg ∧ t.lifecycle = s.lifecycle ∧ t.cause = s.cause

/-- R212, R214: along any run without RESET, a block in CONFIG_ERROR takes nothing from IN, emits
nothing, and keeps its configuration and its CAUSE. The schedule is the model's own field (log entry 4),
and a removal from an empty channel leaves it empty (log entry 9). -/
def Obligations.ConfigErrorConsumesNothing : Prop :=
  ∀ (k : Nat) (s t : State), s.lifecycle = .configError → .reset ∉ s.moves →
    run k s = .next t →
    t.lifecycle = .configError ∧ t.cause = s.cause ∧ t.cfg = s.cfg ∧
      s.inQ <+: t.inQ ∧ t.okQ <:+ s.okQ ∧ t.failQ <:+ s.failQ

/-- R37, R252, R158: each channel is a FIFO queue, changed only by the agents the rule names: IN grows
at the tail by the upstream's append and loses its head by the block's check, OK and FAIL grow at the
tail by the check of the head of IN, with its verdict, and lose their head by the downstream's removal.
The check is the move `check`, or the step with no move pending (log entries 4, 5), and a removal from
an empty channel leaves it empty (log entry 9). -/
def Obligations.ChannelsAreFifo : Prop :=
  ∀ s t : State, step s = .next t →
    let checks := s.lifecycle = .ready ∧ (s.moves = [] ∨ ∃ rest, s.moves = .check :: rest)
    (t.inQ = s.inQ ∨ (∃ m rest, s.moves = .append m :: rest ∧ t.inQ = s.inQ ++ [m]) ∨
      (checks ∧ ∃ m, s.inQ = m :: t.inQ)) ∧
    (t.okQ = s.okQ ∨
      (checks ∧ ∃ m fwd, s.inQ = m :: t.inQ ∧ checkPdu s.cfg m = .accepted fwd ∧
        t.okQ = s.okQ ++ [fwd]) ∨
      ((∃ rest, s.moves = .removeOk :: rest) ∧ t.okQ = s.okQ.tail)) ∧
    (t.failQ = s.failQ ∨
      (checks ∧ ∃ m, s.inQ = m :: t.inQ ∧ checkPdu s.cfg m = .rejected m ∧
        t.failQ = s.failQ ++ [m]) ∨
      ((∃ rest, s.moves = .removeFail :: rest) ∧ t.failQ = s.failQ.tail))

/-- R75: while STATE = READY, a REG-port operation and a check can be taken in either order, with
the same end state. The schedule is the model's own field (log entry 4). -/
def Obligations.RegOperationAndCheckCommute : Prop :=
  ∀ (s : State) (h : Header) (d : Word) (rest : List Move), s.lifecycle = .ready →
    run 2 (s.withMoves (.reg h d :: .check :: rest)) =
      run 2 (s.withMoves (.check :: .reg h d :: rest))

/-- R74, R75, R161: in READY, under every schedule of defined REG-port operations, appends and
checks, the messages of IN and the appended ones end up on OK and FAIL, in order, each with the
verdict of the frozen configuration, and the run is over. The schedule, and the idle step that takes an
enabled check, are the model's own (log entries 4, 5). -/
def Obligations.EveryScheduleRoutesTheSame : Prop :=
  ∀ (s : State) (ms : List Move), s.lifecycle = .ready →
    (∀ m ∈ ms, m.Defined ∧ m ≠ .reset ∧ m ≠ .removeOk ∧ m ≠ .removeFail) →
    let pdus := s.inQ ++ ms.filterMap Move.appended
    ∃ t, run (ms.length + pdus.length) (s.withMoves ms) = .next t ∧
      t.okQ = s.okQ ++ acceptedOf s.cfg pdus ∧
      t.failQ = s.failQ ++ rejectedOf s.cfg pdus ∧
      t.cfg = s.cfg ∧ t.lifecycle = .ready ∧ t.moves = [] ∧ t.Over

/-- R248, R196: messages that wait in IN while UNCONFIGURED are checked, in order, once a CONSTRUCT
succeeds, and wait for ever when it fails. The schedule, and the idle step that takes an enabled check
or waits, are the model's own (log entries 4, 5). -/
def Obligations.WaitingPdusAreCheckedAfterConstruct : Prop :=
  ∀ (s : State), s.lifecycle = .unconfigured → s.moves = [constructMove] →
    (validate s.cfg = .none →
      run (1 + s.inQ.length) s = .next { s with
        lifecycle := .ready, cause := .none, inQ := [], moves := []
        okQ := s.okQ ++ acceptedOf s.cfg s.inQ
        failQ := s.failQ ++ rejectedOf s.cfg s.inQ }) ∧
    (validate s.cfg ≠ .none → ∀ k,
      run (1 + k) s = .next { s with
        lifecycle := .configError, cause := validate s.cfg, moves := [] })

/-- R240, R241, R244: a RESET, the six configuration writes of a legal configuration and a CONSTRUCT
give a new instance in which the messages that waited in IN are checked under the new configuration.
OK and FAIL keep what they held. The schedule and the idle step are the model's own (log entries 4, 5),
and that RESET leaves the pending moves and the responses is the model's choice (log entry 13). -/
def Obligations.ResetRechecksWaitingPdusUnderNewConfiguration : Prop :=
  ∀ (s : State) (c : CfgRegs), validate c = .none →
    s.moves = .reset :: (configWrites c ++ [constructMove]) →
    run (8 + s.inQ.length) s = .next { s with
      cfg := c, lifecycle := .ready, cause := .none, inQ := [], moves := []
      okQ := s.okQ ++ acceptedOf c s.inQ
      failQ := s.failQ ++ rejectedOf c s.inQ }

/-- R160, R8: the block never reads a meta value: renaming all metadata commutes with a step. -/
def Obligations.MetadataIsOpaque : Prop :=
  ∀ (f : Meta → Meta) (s : State), step (s.mapMeta f) = mapNext (State.mapMeta f) (step s)

/-- R254, R214: in a state with no move pending, a run is over exactly when IN is empty, a state that is
neither over nor stuck has an enabled check, and a stuck state is not over. The schedule is the model's
own field (log entry 4). -/
def Obligations.OverStuckOrEnabled : Prop :=
  ∀ s : State, s.moves = [] →
    (s.Over ↔ s.inQ = []) ∧ (s.Stuck → ¬ s.Over) ∧
    (¬ s.Over → ¬ s.Stuck → s.checkEnabled = true)

/-- R160, R8: SUBMIT does not look at the meta value of its operand. That it names the message by its
bytes is the model's reading (log entry 8). -/
def Obligations.SubmitIgnoresOperandMeta : Prop :=
  ∀ (m : Message) (i : Meta) (s : State),
    exec (.submit { m with info := i }) s = exec (.submit m) s

/-- R255, R254, R244: from every clean entry whose program is the six configuration writes of a legal
configuration and CONSTRUCT, the run is over after these and one step for each PDU in IN, with STATUS
0x01 and every PDU on OK or FAIL, in order, by its verdict. The schedule and the idle step are the
model's own (log entries 4, 5). -/
def Obligations.CleanEntryRunsToItsEnd : Prop :=
  ∀ (s : State) (c : CfgRegs), s.CleanEntry → validate c = .none →
    s.moves = configWrites c ++ [constructMove] →
    ∃ t, run (7 + s.inQ.length) s = .next t ∧ t.Over ∧ t.cfg = c ∧ t.status = 0x01 ∧
      t.okQ = acceptedOf c s.inQ ∧ t.failQ = rejectedOf c s.inQ
end

