-- ==== Sys2Proof/Laws/Decoding.lean ====
section
/-! SUPPORT. What the decoder can answer, and the fields of an encoded header. -/

namespace Sys2Proof

/-! ### Header fields -/

@[simp] theorem rw_headerOf (rw : Bool) (idx : BitVec 3) : Header.rw (headerOf rw idx) = rw := by
  revert idx; cases rw <;> decide

@[simp] theorem rsvd_headerOf (rw : Bool) (idx : BitVec 3) :
    Header.rsvd (headerOf rw idx) = 0 := by
  revert idx; cases rw <;> decide

@[simp] theorem idx_headerOf (rw : Bool) (idx : BitVec 3) :
    Header.idx (headerOf rw idx) = idx := by
  revert idx; cases rw <;> decide

/-- A header with RSVD = 0000 is made of its other two fields. -/
theorem headerOf_fields : ∀ h : Header, h.rsvd = 0 → headerOf h.rw h.idx = h := by decide

/-! ### The decoder -/

theorem decode_pdu (m : Message) :
    decode (.pdu m) = if m.wellFormed then .instr (.submit m) else .reject .pduTooLong := rfl

/-- A read frame decodes to the read of its register, whatever DATA is. -/
theorem decode_read (idx : BitVec 3) (d : Word) :
    decode (.reg (headerOf false idx) d) = .instr (readOf idx) := by
  simp [decode, decodeReg]

/-- A write frame decodes by its register. -/
theorem decode_write (idx : BitVec 3) (d : Word) :
    decode (.reg (headerOf true idx) d) = writeOf idx d := by
  simp [decode, decodeReg]

/-- Every frame on the register port is refused for its header, or is a read, or is a write. -/
theorem decodeReg_cases (h : Header) (d : Word) :
    (h.rsvd ≠ 0 ∧ decodeReg h d = .reject .reservedHeader) ∨
    (h = headerOf false h.idx ∧ decodeReg h d = .instr (readOf h.idx)) ∨
    (h = headerOf true h.idx ∧ decodeReg h d = writeOf h.idx d) := by
  by_cases hr : h.rsvd = 0
  · have hf := headerOf_fields h hr
    cases hw : h.rw <;> rw [hw] at hf <;> simp [decodeReg, hr, hw, hf]
  · exact .inl ⟨hr, if_pos hr⟩

/-- The decoder of the register port gives a message to no operation. -/
theorem decodeReg_ne_submit (h : Header) (d : Word) (m : Message) :
    decodeReg h d ≠ .instr (.submit m) := by
  rcases decodeReg_cases h d with ⟨_, e⟩ | ⟨_, e⟩ | ⟨_, e⟩ <;> rw [e]
  · nofun
  · unfold readOf; split <;> nofun
  · unfold writeOf; repeat' split
    all_goals nofun

end Sys2Proof
end

