-- ==== Sys2Proof/Laws/Engine.lean ====
section
/-! SUPPORT. BitStep, ByteStep and the engine: their linearity over exclusive OR, and what they do
with a zero polynomial. -/

namespace Sys2Proof.Machine

variable {w : Nat}

/-- BitStep without a data bit: the register times x, modulo the generator polynomial (R124). -/
def shiftStep (poly reg : BitVec w) : BitVec w :=
  if reg.msb then (reg <<< 1) ^^^ poly else reg <<< 1

theorem bitStep_eq_shiftStep (poly reg : BitVec w) (b : Bool) :
    bitStep poly reg b = shiftStep poly (reg ^^^ topBit w b) := rfl

@[simp] theorem topBit_false : topBit w false = 0 := by simp [topBit]

theorem topBit_xor (a b : Bool) : topBit w (a ^^ b) = topBit w a ^^^ topBit w b := by
  cases a <;> cases b <;> simp

@[simp] theorem bitStep_false (poly reg : BitVec w) :
    bitStep poly reg false = shiftStep poly reg := by
  simp [bitStep_eq_shiftStep]

/-- BitStep with a zero polynomial only shifts (R133). -/
theorem shiftStep_zero_poly (reg : BitVec w) : shiftStep 0#w reg = reg <<< 1 := by
  simp [shiftStep]

/-- The shift is linear over exclusive OR (R136). -/
theorem shiftStep_xor (poly x y : BitVec w) :
    shiftStep poly (x ^^^ y) = shiftStep poly x ^^^ shiftStep poly y := by
  unfold shiftStep
  rw [BitVec.msb_xor, BitVec.shiftLeft_xor_distrib]
  cases x.msb <;> cases y.msb <;> ext i hi <;> simp
  all_goals grind

/-- BitStep is linear in the register and the data bit together (R136). -/
theorem bitStep_xor (poly x y : BitVec w) (a b : Bool) :
    bitStep poly (x ^^^ y) (a ^^ b) = bitStep poly x a ^^^ bitStep poly y b := by
  simp only [bitStep_eq_shiftStep, ← shiftStep_xor, topBit_xor]
  congr 1
  ext i hi
  simp
  grind

/-- BitSteps along a list of bit indices are linear (R136). -/
theorem bitSteps_xor (poly : BitVec w) (d e : Byte) (is : List Nat) (x y : BitVec w) :
    is.foldl (fun r i => bitStep poly r ((d ^^^ e).getLsbD i)) (x ^^^ y) =
      is.foldl (fun r i => bitStep poly r (d.getLsbD i)) x ^^^
        is.foldl (fun r i => bitStep poly r (e.getLsbD i)) y := by
  induction is generalizing x y with
  | nil => rfl
  | cons i is ih => rw [List.foldl_cons, BitVec.getLsbD_xor, bitStep_xor, ih]; rfl

/-- ByteStep is linear in the register and the octet together (R136). -/
theorem byteStep_xor (poly x y : BitVec w) (d e : Byte) :
    byteStep poly (x ^^^ y) (d ^^^ e) = byteStep poly x d ^^^ byteStep poly y e :=
  bitSteps_xor poly d e _ x y

/-! ### Bit reversal -/

@[simp] theorem getLsbD_rev {n : Nat} (v : BitVec n) (i : Nat) :
    (rev v).getLsbD i = v.getMsbD i := by
  rw [rev, BitVec.getLsbD_reverse]

theorem rev_rev {n : Nat} (v : BitVec n) : rev (rev v) = v := BitVec.reverse_reverse_eq

theorem rev_xor {n : Nat} (x y : BitVec n) : rev (x ^^^ y) = rev x ^^^ rev y := by
  ext i hi
  simp [← BitVec.getLsbD_eq_getElem]

theorem revIf_xor {n : Nat} (f : Bool) (x y : BitVec n) :
    revIf f (x ^^^ y) = revIf f x ^^^ revIf f y := by
  cases f
  · rfl
  · exact rev_xor x y

theorem revIf_revIf {n : Nat} (f : Bool) (x : BitVec n) : revIf f (revIf f x) = x := by
  cases f
  · rfl
  · exact rev_rev x

theorem revIf_injective {n : Nat} {f : Bool} {x y : BitVec n} (h : revIf f x = revIf f y) :
    x = y := by
  rw [← revIf_revIf f x, h, revIf_revIf]

/-! ### Feeding bytes -/

@[simp] theorem feed_nil (poly reg : BitVec w) (f : Bool) : feed poly f reg [] = reg := rfl

@[simp] theorem feed_cons (poly reg : BitVec w) (f : Bool) (b : Byte) (bs : List Byte) :
    feed poly f reg (b :: bs) = feed poly f (byteStep poly reg (revIf f b)) bs := rfl

theorem feed_append (poly reg : BitVec w) (f : Bool) (as bs : List Byte) :
    feed poly f reg (as ++ bs) = feed poly f (feed poly f reg as) bs :=
  List.foldl_append

/-- Feeding bytes is linear in the register and the bytes together (R136). -/
theorem feed_xor (poly x y : BitVec w) (f : Bool) (as bs : List Byte)
    (h : as.length = bs.length) :
    feed poly f (x ^^^ y) (List.zipWith (· ^^^ ·) as bs) =
      feed poly f x as ^^^ feed poly f y bs := by
  induction as generalizing bs x y with
  | nil =>
    cases bs with
    | nil => rfl
    | cons b bs => exact absurd h (by simp)
  | cons a as ih =>
    cases bs with
    | nil => exact absurd h (by simp)
    | cons b bs =>
      rw [List.zipWith_cons_cons, feed_cons, feed_cons, feed_cons, revIf_xor, byteStep_xor,
        ih _ _ _ (by simpa using h)]

/-! ### A byte at a time -/

/-- Several shifts in a row are linear over exclusive OR. -/
theorem shiftSteps_xor (p x y : BitVec w) (k : Nat) :
    (shiftStep p)^[k] (x ^^^ y) = (shiftStep p)^[k] x ^^^ (shiftStep p)^[k] y := by
  induction k generalizing x y with
  | zero => rfl
  | succ k ih => rw [Function.iterate_succ_apply, shiftStep_xor, ih]; rfl

/-- Shifts before any set bit reaches the top position are plain shifts. -/
theorem shiftSteps_of_low (p x : BitVec w) (k : Nat) (hx : ∀ i, w - k ≤ i → x.getLsbD i = false) :
    (shiftStep p)^[k] x = x <<< k := by
  induction k generalizing x with
  | zero => simp
  | succ k ih =>
    rw [Function.iterate_succ_apply]
    have hm : x.msb = false := by
      rw [BitVec.msb_eq_getLsbD_last]; exact hx _ (by omega)
    have hs : shiftStep p x = x <<< 1 := by simp [shiftStep, hm]
    rw [hs, ih, ← BitVec.shiftLeft_add, Nat.add_comm]
    intro i hi
    rw [BitVec.getLsbD_shiftLeft]
    rcases Nat.lt_or_ge i w with h | h
    · by_cases h0 : i < 1
      · simp [h0]
      · rw [hx (i-1) (by omega)]; simp
    · simp [h]

/-- A data bit in the top position, as a bit lower down that j shifts bring there. -/
theorem topBit_eq_shiftSteps (p : BitVec w) (b : Bool) (j : Nat) (hj : j < w) :
    topBit w b = (shiftStep p)^[j] ((BitVec.ofBool b).setWidth w <<< (w - 1 - j)) := by
  rw [shiftSteps_of_low, ← BitVec.shiftLeft_add, topBit]
  · congr 1; omega
  · intro i hi
    rw [BitVec.getLsbD_shiftLeft]
    by_cases h0 : i < w - 1 - j
    · simp [h0]
    · have : i - (w-1-j) ≠ 0 := by omega
      simp [this]

/-- ByteStep mixes the octet into the top byte of the register and shifts eight times (R134). -/
theorem byteStep_eq_shiftSteps (p r : BitVec w) (d : Byte) (hw : 8 ≤ w) :
    byteStep p r d = (shiftStep p)^[8] (r ^^^ (d.setWidth w <<< (w - 8))) := by
  have hd : d.setWidth w <<< (w - 8) =
      (BitVec.ofBool (d.getLsbD 7)).setWidth w <<< (w - 1 - 0) ^^^
      (BitVec.ofBool (d.getLsbD 6)).setWidth w <<< (w - 1 - 1) ^^^
      (BitVec.ofBool (d.getLsbD 5)).setWidth w <<< (w - 1 - 2) ^^^
      (BitVec.ofBool (d.getLsbD 4)).setWidth w <<< (w - 1 - 3) ^^^
      (BitVec.ofBool (d.getLsbD 3)).setWidth w <<< (w - 1 - 4) ^^^
      (BitVec.ofBool (d.getLsbD 2)).setWidth w <<< (w - 1 - 5) ^^^
      (BitVec.ofBool (d.getLsbD 1)).setWidth w <<< (w - 1 - 6) ^^^
      (BitVec.ofBool (d.getLsbD 0)).setWidth w <<< (w - 1 - 7) := by
    apply BitVec.eq_of_getLsbD_eq
    intro i hi
    simp only [BitVec.getLsbD_xor, BitVec.getLsbD_shiftLeft, BitVec.getLsbD_setWidth, hi,
      decide_true, Bool.true_and, BitVec.getLsbD_ofBool]
    by_cases h8 : i < w - 8
    · have : ∀ j, j < 8 → i < w - 1 - j := by intro j hj; omega
      simp [h8, this]
      omega
    · obtain ⟨m, rfl⟩ : ∃ m, i = w - 8 + m := ⟨i - (w-8), by omega⟩
      have hm : m < 8 := by omega
      have e : ∀ j, j < 8 → (decide (w - 8 + m < w - 1 - j) = decide (m < 7 - j)) ∧
        ((w - 8 + m - (w-1-j) = 0) ↔ m ≤ 7 - j) ∧ (w - 8 + m - (w-1-j) < w) := by
        intro j hj; refine ⟨?_, ?_, ?_⟩
        · congr 1; apply propext; omega
        · omega
        · omega
      simp only [e _ (by decide : 0 < 8), e _ (by decide : 1 < 8), e _ (by decide : 2 < 8),
        e _ (by decide : 3 < 8), e _ (by decide : 4 < 8), e _ (by decide : 5 < 8),
          e _ (by decide : 6 < 8), e _ (by decide : 7 < 8)]
      have : w - 8 + m - (w - 8) < w := by omega
      simp only [h8, this]
      have e2 : w - 8 + m - (w - 8) = m := by omega
      rw [e2]
      interval_cases m <;> simp
  have hj : ∀ (b : Bool) (j : Nat), j < 8 →
      (shiftStep p)^[8] ((BitVec.ofBool b).setWidth w <<< (w - 1 - j)) =
        (shiftStep p)^[8 - j] (topBit w b) := by
    intro b j hj
    rw [topBit_eq_shiftSteps p b j (by omega), ← Function.iterate_add_apply]
    rw [show 8 - j + j = 8 by omega]
  rw [hd]
  simp only [shiftSteps_xor, hj _ _ (by decide : 0 < 8), hj _ _ (by decide : 1 < 8),
    hj _ _ (by decide : 2 < 8), hj _ _ (by decide : 3 < 8), hj _ _ (by decide : 4 < 8),
      hj _ _ (by decide : 5 < 8), hj _ _ (by decide : 6 < 8), hj _ _ (by decide : 7 < 8)]
  simp only [byteStep, List.foldl, bitStep_eq_shiftStep, shiftStep_xor,
    Function.iterate_succ_apply', Function.iterate_zero, id, BitVec.xor_assoc, Nat.reduceSub]

/-- A zero octet only shifts. -/
theorem byteStep_zero_byte (p x : BitVec w) : byteStep p x 0 = (shiftStep p)^[8] x := by
  simp [byteStep, Function.iterate_succ_apply']

/-- Zero octets only shift. -/
theorem feed_zeros (p x : BitVec w) (f : Bool) (n : Nat) : feed p f x (List.replicate n 0) =
  (shiftStep p)^[8*n] x := by
  induction n generalizing x with
  | zero => rfl
  | succ n ih =>
    have : revIf f (0 : Byte) = 0 := by cases f <;> decide
    rw [List.replicate_succ, feed_cons, this, ih, byteStep_zero_byte,
      ← Function.iterate_add_apply]; rfl

/-! ### The right-shifting form -/

/-- The right-shifting step is the reversed left-shifting one (R135). -/
theorem rev_shiftStep (p x : BitVec w) : rev (shiftStep p x) = rightBitStep (rev p) (rev x) := by
  unfold shiftStep rightBitStep
  have h0 : (rev x).getLsbD 0 = x.msb := by rw [getLsbD_rev]; rfl
  have h1 : rev (x <<< 1) = rev x >>> 1 := by
    apply BitVec.eq_of_getLsbD_eq
    intro i hi
    rw [getLsbD_rev, BitVec.getLsbD_ushiftRight, getLsbD_rev, BitVec.getMsbD_shiftLeft,
      Nat.add_comm]
  rw [h0]
  cases x.msb
  · exact h1
  · simp [rev_xor, h1]

end Sys2Proof.Machine
end

