-- ==== Sys2Proof/Laws/PerInstr.lean ====
section
/-! SUPPORT. One fact about the encoding of every operation, stated per constructor. -/

namespace Sys2Proof.Laws.EncodedHeader

/-- An operation on the register port is encoded with RSVD = 0000 (R91) and with its row's header
(R97). A read's frame has H[7] = 0 and carries no DATA (R92). SUBMIT has no header (R95). -/
def Statement (i : Instr) : Prop :=
  match encode i with
  | .reg h d => h.rsvd = 0 ∧ (h.rw = false → d = 0) ∧ decode (.reg h d) = .instr i
  | .pdu m => i = .submit m

theorem rdNumBits : Statement .rdNumBits := ⟨by decide, fun _ => rfl, rfl⟩

theorem rdPoly : Statement .rdPoly := ⟨by decide, fun _ => rfl, rfl⟩

theorem rdInit : Statement .rdInit := ⟨by decide, fun _ => rfl, rfl⟩

theorem rdXorout : Statement .rdXorout := ⟨by decide, fun _ => rfl, rfl⟩

theorem rdFlags : Statement .rdFlags := ⟨by decide, fun _ => rfl, rfl⟩

theorem rdSkip : Statement .rdSkip := ⟨by decide, fun _ => rfl, rfl⟩

theorem rdCmd : Statement .rdCmd := ⟨by decide, fun _ => rfl, rfl⟩

theorem rdStatus : Statement .rdStatus := ⟨by decide, fun _ => rfl, rfl⟩

theorem wrNumBits (v : Word) : Statement (.wrNumBits v) := ⟨by decide, nofun, rfl⟩

theorem wrPoly (v : Word) : Statement (.wrPoly v) := ⟨by decide, nofun, rfl⟩

theorem wrInit (v : Word) : Statement (.wrInit v) := ⟨by decide, nofun, rfl⟩

theorem wrXorout (v : Word) : Statement (.wrXorout v) := ⟨by decide, nofun, rfl⟩

theorem wrFlags (v : Word) : Statement (.wrFlags v) := ⟨by decide, nofun, rfl⟩

theorem wrSkip (v : Word) : Statement (.wrSkip v) := ⟨by decide, nofun, rfl⟩

theorem construct : Statement .construct := ⟨by decide, nofun, rfl⟩

theorem wrStatus (v : Word) : Statement (.wrStatus v) := ⟨by decide, nofun, rfl⟩

theorem submit (m : Message) : Statement (.submit m) := rfl

end Sys2Proof.Laws.EncodedHeader
end

