-- ==== Sys2Proof/Laws/State.lean ====
section
/-! SUPPORT. What each update of the state does to each field: one lemma per field and update. -/

namespace Sys2Proof.Machine.State

/-! ### respond -/

section
variable (s : State) (v : Word)

@[simp] theorem respond_cfg : (s.respond v).cfg = s.cfg := rfl
@[simp] theorem respond_lifecycle : (s.respond v).lifecycle = s.lifecycle := rfl
@[simp] theorem respond_cause : (s.respond v).cause = s.cause := rfl
@[simp] theorem respond_inQ : (s.respond v).inQ = s.inQ := rfl
@[simp] theorem respond_okQ : (s.respond v).okQ = s.okQ := rfl
@[simp] theorem respond_failQ : (s.respond v).failQ = s.failQ := rfl
@[simp] theorem respond_responses : (s.respond v).responses = s.responses ++ [v] := rfl
@[simp] theorem respond_moves : (s.respond v).moves = s.moves := rfl

end

/-! ### readCfg -/

section
variable (s : State) (r : CfgReg)

@[simp] theorem readCfg_cfg : (s.readCfg r).cfg = s.cfg := rfl
@[simp] theorem readCfg_lifecycle : (s.readCfg r).lifecycle = s.lifecycle := rfl
@[simp] theorem readCfg_cause : (s.readCfg r).cause = s.cause := rfl
@[simp] theorem readCfg_inQ : (s.readCfg r).inQ = s.inQ := rfl
@[simp] theorem readCfg_okQ : (s.readCfg r).okQ = s.okQ := rfl
@[simp] theorem readCfg_failQ : (s.readCfg r).failQ = s.failQ := rfl
@[simp] theorem readCfg_responses : (s.readCfg r).responses = s.responses ++ [s.cfg.get r] := rfl
@[simp] theorem readCfg_moves : (s.readCfg r).moves = s.moves := rfl

end

/-! ### setStatus -/

section
variable (s : State) (l : Lifecycle) (c : Cause)

@[simp] theorem setStatus_cfg : (s.setStatus l c).cfg = s.cfg := rfl
@[simp] theorem setStatus_lifecycle : (s.setStatus l c).lifecycle = l := rfl
@[simp] theorem setStatus_cause : (s.setStatus l c).cause = c := rfl
@[simp] theorem setStatus_inQ : (s.setStatus l c).inQ = s.inQ := rfl
@[simp] theorem setStatus_okQ : (s.setStatus l c).okQ = s.okQ := rfl
@[simp] theorem setStatus_failQ : (s.setStatus l c).failQ = s.failQ := rfl
@[simp] theorem setStatus_responses : (s.setStatus l c).responses = s.responses := rfl
@[simp] theorem setStatus_moves : (s.setStatus l c).moves = s.moves := rfl

end

/-! ### appendIn -/

section
variable (s : State) (m : Message)

@[simp] theorem appendIn_cfg : (s.appendIn m).cfg = s.cfg := rfl
@[simp] theorem appendIn_lifecycle : (s.appendIn m).lifecycle = s.lifecycle := rfl
@[simp] theorem appendIn_cause : (s.appendIn m).cause = s.cause := rfl
@[simp] theorem appendIn_inQ : (s.appendIn m).inQ = s.inQ ++ [m] := rfl
@[simp] theorem appendIn_okQ : (s.appendIn m).okQ = s.okQ := rfl
@[simp] theorem appendIn_failQ : (s.appendIn m).failQ = s.failQ := rfl
@[simp] theorem appendIn_responses : (s.appendIn m).responses = s.responses := rfl
@[simp] theorem appendIn_moves : (s.appendIn m).moves = s.moves := rfl

end

/-! ### takeIn -/

section
variable (s : State)

@[simp] theorem takeIn_cfg : (s.takeIn).cfg = s.cfg := rfl
@[simp] theorem takeIn_lifecycle : (s.takeIn).lifecycle = s.lifecycle := rfl
@[simp] theorem takeIn_cause : (s.takeIn).cause = s.cause := rfl
@[simp] theorem takeIn_inQ : (s.takeIn).inQ = s.inQ.tail := rfl
@[simp] theorem takeIn_okQ : (s.takeIn).okQ = s.okQ := rfl
@[simp] theorem takeIn_failQ : (s.takeIn).failQ = s.failQ := rfl
@[simp] theorem takeIn_responses : (s.takeIn).responses = s.responses := rfl
@[simp] theorem takeIn_moves : (s.takeIn).moves = s.moves := rfl

end

/-! ### emitOk -/

section
variable (s : State) (m : Message)

@[simp] theorem emitOk_cfg : (s.emitOk m).cfg = s.cfg := rfl
@[simp] theorem emitOk_lifecycle : (s.emitOk m).lifecycle = s.lifecycle := rfl
@[simp] theorem emitOk_cause : (s.emitOk m).cause = s.cause := rfl
@[simp] theorem emitOk_inQ : (s.emitOk m).inQ = s.inQ := rfl
@[simp] theorem emitOk_okQ : (s.emitOk m).okQ = s.okQ ++ [m] := rfl
@[simp] theorem emitOk_failQ : (s.emitOk m).failQ = s.failQ := rfl
@[simp] theorem emitOk_responses : (s.emitOk m).responses = s.responses := rfl
@[simp] theorem emitOk_moves : (s.emitOk m).moves = s.moves := rfl

end

/-! ### emitFail -/

section
variable (s : State) (m : Message)

@[simp] theorem emitFail_cfg : (s.emitFail m).cfg = s.cfg := rfl
@[simp] theorem emitFail_lifecycle : (s.emitFail m).lifecycle = s.lifecycle := rfl
@[simp] theorem emitFail_cause : (s.emitFail m).cause = s.cause := rfl
@[simp] theorem emitFail_inQ : (s.emitFail m).inQ = s.inQ := rfl
@[simp] theorem emitFail_okQ : (s.emitFail m).okQ = s.okQ := rfl
@[simp] theorem emitFail_failQ : (s.emitFail m).failQ = s.failQ ++ [m] := rfl
@[simp] theorem emitFail_responses : (s.emitFail m).responses = s.responses := rfl
@[simp] theorem emitFail_moves : (s.emitFail m).moves = s.moves := rfl

end

/-! ### removeOk -/

section
variable (s : State)

@[simp] theorem removeOk_cfg : (s.removeOk).cfg = s.cfg := rfl
@[simp] theorem removeOk_lifecycle : (s.removeOk).lifecycle = s.lifecycle := rfl
@[simp] theorem removeOk_cause : (s.removeOk).cause = s.cause := rfl
@[simp] theorem removeOk_inQ : (s.removeOk).inQ = s.inQ := rfl
@[simp] theorem removeOk_okQ : (s.removeOk).okQ = s.okQ.tail := rfl
@[simp] theorem removeOk_failQ : (s.removeOk).failQ = s.failQ := rfl
@[simp] theorem removeOk_responses : (s.removeOk).responses = s.responses := rfl
@[simp] theorem removeOk_moves : (s.removeOk).moves = s.moves := rfl

end

/-! ### removeFail -/

section
variable (s : State)

@[simp] theorem removeFail_cfg : (s.removeFail).cfg = s.cfg := rfl
@[simp] theorem removeFail_lifecycle : (s.removeFail).lifecycle = s.lifecycle := rfl
@[simp] theorem removeFail_cause : (s.removeFail).cause = s.cause := rfl
@[simp] theorem removeFail_inQ : (s.removeFail).inQ = s.inQ := rfl
@[simp] theorem removeFail_okQ : (s.removeFail).okQ = s.okQ := rfl
@[simp] theorem removeFail_failQ : (s.removeFail).failQ = s.failQ.tail := rfl
@[simp] theorem removeFail_responses : (s.removeFail).responses = s.responses := rfl
@[simp] theorem removeFail_moves : (s.removeFail).moves = s.moves := rfl

end

/-! ### resetBlock -/

section
variable (s : State)

@[simp] theorem resetBlock_cfg : (s.resetBlock).cfg = CfgRegs.reset := rfl
@[simp] theorem resetBlock_lifecycle : (s.resetBlock).lifecycle = .unconfigured := rfl
@[simp] theorem resetBlock_cause : (s.resetBlock).cause = .none := rfl
@[simp] theorem resetBlock_inQ : (s.resetBlock).inQ = s.inQ := rfl
@[simp] theorem resetBlock_okQ : (s.resetBlock).okQ = s.okQ := rfl
@[simp] theorem resetBlock_failQ : (s.resetBlock).failQ = s.failQ := rfl
@[simp] theorem resetBlock_responses : (s.resetBlock).responses = s.responses := rfl
@[simp] theorem resetBlock_moves : (s.resetBlock).moves = s.moves := rfl

end

/-! ### withMoves -/

section
variable (s : State) (ms : List Move)

@[simp] theorem withMoves_cfg : (s.withMoves ms).cfg = s.cfg := rfl
@[simp] theorem withMoves_lifecycle : (s.withMoves ms).lifecycle = s.lifecycle := rfl
@[simp] theorem withMoves_cause : (s.withMoves ms).cause = s.cause := rfl
@[simp] theorem withMoves_inQ : (s.withMoves ms).inQ = s.inQ := rfl
@[simp] theorem withMoves_okQ : (s.withMoves ms).okQ = s.okQ := rfl
@[simp] theorem withMoves_failQ : (s.withMoves ms).failQ = s.failQ := rfl
@[simp] theorem withMoves_responses : (s.withMoves ms).responses = s.responses := rfl
@[simp] theorem withMoves_moves : (s.withMoves ms).moves = ms := rfl

end

/-! ### cfgWrite -/

section
variable (s : State) (r : CfgReg) (v : Word)

theorem cfgWrite_of_unconfigured (h : s.lifecycle = .unconfigured) :
    s.cfgWrite r v = { s with cfg := s.cfg.set r v } := if_pos h

theorem cfgWrite_of_configured (h : s.lifecycle ≠ .unconfigured) : s.cfgWrite r v = s := if_neg h

theorem cfgWrite_cfg :
    (s.cfgWrite r v).cfg = if s.lifecycle = .unconfigured then s.cfg.set r v else s.cfg := by
  unfold cfgWrite
  split <;> rfl

@[simp] theorem cfgWrite_lifecycle : (s.cfgWrite r v).lifecycle = s.lifecycle := by
  unfold cfgWrite
  split <;> rfl

@[simp] theorem cfgWrite_cause : (s.cfgWrite r v).cause = s.cause := by
  unfold cfgWrite
  split <;> rfl

@[simp] theorem cfgWrite_inQ : (s.cfgWrite r v).inQ = s.inQ := by
  unfold cfgWrite
  split <;> rfl

@[simp] theorem cfgWrite_okQ : (s.cfgWrite r v).okQ = s.okQ := by
  unfold cfgWrite
  split <;> rfl

@[simp] theorem cfgWrite_failQ : (s.cfgWrite r v).failQ = s.failQ := by
  unfold cfgWrite
  split <;> rfl

@[simp] theorem cfgWrite_responses : (s.cfgWrite r v).responses = s.responses := by
  unfold cfgWrite
  split <;> rfl

@[simp] theorem cfgWrite_moves : (s.cfgWrite r v).moves = s.moves := by
  unfold cfgWrite
  split <;> rfl

end

/-! ### route -/

section
variable (s : State) (v : Verdict)

@[simp] theorem route_accepted (m : Message) : s.route (.accepted m) = s.emitOk m := rfl
@[simp] theorem route_rejected (m : Message) : s.route (.rejected m) = s.emitFail m := rfl
@[simp] theorem route_cfg : (s.route v).cfg = s.cfg := by cases v <;> rfl
@[simp] theorem route_lifecycle : (s.route v).lifecycle = s.lifecycle := by cases v <;> rfl
@[simp] theorem route_cause : (s.route v).cause = s.cause := by cases v <;> rfl
@[simp] theorem route_inQ : (s.route v).inQ = s.inQ := by cases v <;> rfl
@[simp] theorem route_responses : (s.route v).responses = s.responses := by cases v <;> rfl
@[simp] theorem route_moves : (s.route v).moves = s.moves := by cases v <;> rfl

end

end Sys2Proof.Machine.State

namespace Sys2Proof.Machine.CfgRegs

variable (c : CfgRegs) (v : Word)

/-! ### set and get -/

/-- A register that was just written reads as the written word. -/
@[simp] theorem get_set_same (r : CfgReg) : (c.set r v).get r = v := by cases r <;> rfl

/-- A write leaves every other register as it was. -/
theorem get_set_other {q r : CfgReg} (h : q ≠ r) : (c.set r v).get q = c.get q := by
  cases q <;> cases r <;> first | rfl | exact absurd rfl h

end Sys2Proof.Machine.CfgRegs
end

