-- ==== Sys2Proof/Laws/Step.lean ====
section
/-! SUPPORT. What a step can do: one inversion lemma for each shared operation and for the step. -/

namespace Sys2Proof.Machine

/-! ### Operations on the register port -/

/-- A read answers a next state that differs in the responses alone. -/
theorem exec_readOf (idx : BitVec 3) (s : State) :
    ∃ v, exec (readOf idx) s = .next (s.respond v) := by
  unfold readOf
  split <;> exact ⟨_, rfl⟩

/-- What an operation on the register port does: a read, a configuration write, a construction, or
nothing. -/
theorem exec_reg_cases {h : Header} {d : Word} {i : Instr} (hi : decodeReg h d = .instr i)
    (s : State) :
    (∃ v, exec i s = .next (s.respond v)) ∨
    (∃ r v, exec i s = .next (s.cfgWrite r v)) ∨
    (exec i s = .next (s.setStatus (validate s.cfg).outcome (validate s.cfg)) ∧
      s.lifecycle = .unconfigured) ∨
    exec i s = .next s := by
  rcases decodeReg_cases h d with ⟨_, e⟩ | ⟨_, e⟩ | ⟨_, e⟩ <;> rw [e] at hi
  · nomatch hi
  · cases hi
    exact .inl (exec_readOf _ s)
  · unfold writeOf at hi
    split at hi
    case h_7 =>
      split at hi <;> cases hi
      by_cases hl : s.lifecycle = .unconfigured
      · exact .inr (.inr (.inl ⟨if_pos hl, hl⟩))
      · exact .inr (.inr (.inr (if_neg hl)))
    case h_8 => cases hi; exact .inr (.inr (.inr rfl))
    all_goals cases hi; exact .inr (.inl ⟨_, _, rfl⟩)

/-! ### The check -/

theorem execSubmit_enabled {s : State} {m : Message} {q : List Message}
    (hl : s.lifecycle = .ready) (hq : s.inQ = m :: q) :
    execSubmit m s = .next (s.takeIn.route (checkPdu s.cfg m)) := by
  unfold execSubmit
  rw [hq]
  exact if_pos ⟨hl, rfl⟩

theorem execSubmit_waits {s : State} {m : Message}
    (h : s.lifecycle ≠ .ready ∨ s.inQ.head?.map Message.bytes ≠ some m.bytes) :
    execSubmit m s = .next s := by
  unfold execSubmit
  cases hq : s.inQ with
  | nil => rfl
  | cons head q =>
    refine if_neg fun ⟨hl, hb⟩ => h.elim (· hl) (· ?_)
    rw [hq, List.head?_cons, Option.map_some, hb]

/-- SUBMIT waits or routes the head of IN, and its next state is the only outcome it has. -/
theorem execSubmit_cases (m : Message) (s : State) :
    ((s.lifecycle ≠ .ready ∨ s.inQ.head?.map Message.bytes ≠ some m.bytes) ∧
      execSubmit m s = .next s) ∨
    (s.lifecycle = .ready ∧ ∃ head q, s.inQ = head :: q ∧ head.bytes = m.bytes ∧
      execSubmit m s = .next (s.takeIn.route (checkPdu s.cfg head))) := by
  by_cases h : s.lifecycle ≠ .ready ∨ s.inQ.head?.map Message.bytes ≠ some m.bytes
  · exact .inl ⟨h, execSubmit_waits h⟩
  · obtain ⟨hl, hb⟩ : s.lifecycle = .ready ∧ s.inQ.head?.map Message.bytes = some m.bytes := by
      simpa only [not_or, not_not] using h
    cases hq : s.inQ with
    | nil => rw [hq] at hb; nomatch hb
    | cons head q =>
      have hh : head.bytes = m.bytes := by simpa [hq] using hb
      refine .inr ⟨hl, head, q, rfl, hh, ?_⟩
      unfold execSubmit
      rw [hq]
      exact if_pos ⟨hl, hh⟩

/-- The check step: it waits, or it routes the head of IN. -/
theorem checkHead_cases (s : State) :
    ((s.lifecycle ≠ .ready ∨ s.inQ = []) ∧ checkHead s = .next s) ∨
    (s.lifecycle = .ready ∧ ∃ m q, s.inQ = m :: q ∧
      checkHead s = .next (s.takeIn.route (checkPdu s.cfg m))) := by
  cases hq : s.inQ with
  | nil => exact .inl ⟨.inr rfl, by unfold checkHead; rw [hq]⟩
  | cons m q =>
    have hc : checkHead s = execSubmit m s := by
      unfold checkHead; rw [hq]; rfl
    rw [hc]
    by_cases hl : s.lifecycle = .ready
    · exact .inr ⟨hl, m, q, rfl, execSubmit_enabled hl hq⟩
    · exact .inl ⟨.inl hl, execSubmit_waits (.inl hl)⟩

/-! ### The step -/

theorem step_idle {s : State} (h : s.moves = []) : step s = checkHead s := by
  unfold step; rw [h]

theorem step_move {s : State} {m : Move} {rest : List Move} (h : s.moves = m :: rest) :
    step s = runMove m (s.withMoves rest) := by
  unfold step; rw [h]

theorem issueReg_instr {h : Header} {d : Word} {i : Instr} (hi : decodeReg h d = .instr i)
    (s : State) : issueReg h d s = exec i s := by
  simp only [issueReg, decode, hi]

theorem issueReg_reject {h : Header} {d : Word} {r : Reject} (hr : decodeReg h d = .reject r)
    (s : State) : issueReg h d s = .refused (Refusal.ofReject r) := by
  simp only [issueReg, decode, hr]

/-- What a REG-port operation does: it is refused, or one of the four cases of its operation. -/
theorem issueReg_cases (h : Header) (d : Word) (s : State) :
    (∃ r, decodeReg h d = .reject r ∧ issueReg h d s = .refused (Refusal.ofReject r)) ∨
    (∃ v, issueReg h d s = .next (s.respond v)) ∨
    (∃ r v, issueReg h d s = .next (s.cfgWrite r v)) ∨
    (issueReg h d s = .next (s.setStatus (validate s.cfg).outcome (validate s.cfg)) ∧
      s.lifecycle = .unconfigured) ∨
    issueReg h d s = .next s := by
  cases hd : decodeReg h d with
  | reject r => exact .inl ⟨r, rfl, issueReg_reject hd s⟩
  | instr i =>
    rw [issueReg_instr hd s]
    exact .inr (exec_reg_cases hd s)

/-- What an offer to IN does: the message is appended, or refused for its length. -/
theorem offerPdu_cases (m : Message) (s : State) :
    (m.bytes.length ≤ Config.maxPduBytes ∧ offerPdu m s = .next (s.appendIn m)) ∨
    (Config.maxPduBytes < m.bytes.length ∧ offerPdu m s = .refused .pduTooLong) := by
  by_cases hm : m.bytes.length ≤ Config.maxPduBytes
  · exact .inl ⟨hm, by simp [offerPdu, decode, decodePdu, Message.wellFormed, hm]⟩
  · refine .inr ⟨by omega, by simp [offerPdu, decode, decodePdu, Message.wellFormed, hm,
      Refusal.ofReject]⟩

/-- Everything a move can do when it answers `next`: the state before, the move, the state after. -/
inductive MoveEffect (u : State) : Move → State → Prop where
  | answered (h : Header) (d v : Word) : MoveEffect u (.reg h d) (u.respond v)
  | wrote (h : Header) (d : Word) (r : CfgReg) (v : Word) :
      MoveEffect u (.reg h d) (u.cfgWrite r v)
  | constructed (h : Header) (d : Word) (hl : u.lifecycle = .unconfigured) :
      MoveEffect u (.reg h d) (u.setStatus (validate u.cfg).outcome (validate u.cfg))
  | ignored (h : Header) (d : Word) : MoveEffect u (.reg h d) u
  | appended (m : Message) (hm : m.bytes.length ≤ Config.maxPduBytes) :
      MoveEffect u (.append m) (u.appendIn m)
  | waited (hw : u.lifecycle ≠ .ready ∨ u.inQ = []) : MoveEffect u .check u
  | routed (m : Message) (q : List Message) (hl : u.lifecycle = .ready) (hq : u.inQ = m :: q) :
      MoveEffect u .check (u.takeIn.route (checkPdu u.cfg m))
  | removedOk : MoveEffect u .removeOk u.removeOk
  | removedFail : MoveEffect u .removeFail u.removeFail
  | wasReset : MoveEffect u .reset u.resetBlock

theorem checkHead_effect {u t : State} (h : checkHead u = .next t) : MoveEffect u .check t := by
  rcases checkHead_cases u with ⟨hw, e⟩ | ⟨hl, m, q, hq, e⟩ <;> rw [e] at h <;> cases h
  · exact .waited hw
  · exact .routed m q hl hq

theorem runMove_effect {m : Move} {u t : State} (h : runMove m u = .next t) :
    MoveEffect u m t := by
  cases m with
  | check => exact checkHead_effect h
  | removeOk => cases h; exact .removedOk
  | removeFail => cases h; exact .removedFail
  | reset => cases h; exact .wasReset
  | append msg =>
    rcases offerPdu_cases msg u with ⟨hl, e⟩ | ⟨_, e⟩ <;> simp only [runMove, e] at h <;> cases h
    exact .appended msg hl
  | reg hd d =>
    rcases issueReg_cases hd d u with ⟨_, _, e⟩ | ⟨v, e⟩ | ⟨r, v, e⟩ | ⟨e, hl⟩ | e <;>
      simp only [runMove, e] at h <;> cases h
    · exact .answered hd d v
    · exact .wrote hd d r v
    · exact .constructed hd d hl
    · exact .ignored hd d

/-- Everything a step that answers `next` can have done. -/
theorem step_effect {s t : State} (h : step s = .next t) :
    (s.moves = [] ∧ MoveEffect s .check t) ∨
    ∃ m rest, s.moves = m :: rest ∧ MoveEffect (s.withMoves rest) m t := by
  cases hm : s.moves with
  | nil => exact .inl ⟨rfl, checkHead_effect (step_idle hm ▸ h)⟩
  | cons m rest => exact .inr ⟨m, rest, rfl, runMove_effect (step_move hm ▸ h)⟩

/-! ### The clean entry -/

/-- Every clean entry meets the invariant of the block (R255). -/
theorem State.CleanEntry.inv {s : State} (h : s.CleanEntry) : s.Inv := by
  obtain ⟨hs, hb, _⟩ := h
  rw [hs]
  exact ⟨by simp [entryWith, State.reset], nofun, hb, nofun, nofun⟩

/-! ### Runs -/

@[simp] theorem run_zero (s : State) : run 0 s = .next s := rfl

theorem run_succ_next {s t : State} (k : Nat) (h : step s = .next t) :
    run (k + 1) s = run k t := by
  have : Sys2Proof.core.step s = .next t := h
  simp only [run, Host.Core.run, this]; rfl

theorem run_succ_refused {s : State} {r : Refusal} (k : Nat) (h : step s = .refused r) :
    run (k + 1) s = .refused r := by
  have : Sys2Proof.core.step s = .refused r := h
  simp only [run, Host.Core.run, this]; rfl

/-- An invariant that every step keeps holds along every run. -/
theorem run_induction {P : State → Prop} (hstep : ∀ s t, P s → step s = .next t → P t)
    (k : Nat) (s t : State) (hs : P s) (h : run k s = .next t) : P t := by
  induction k generalizing s with
  | zero => cases h; exact hs
  | succ k ih =>
    cases he : step s with
    | next u => exact ih u (hstep s u hs he) (run_succ_next k he ▸ h)
    | fault r => nomatch r
    | refused r => rw [run_succ_refused k he] at h; nomatch h

end Sys2Proof.Machine
end

