-- ==== Sys2Proof/Laws/Validator.lean ====
section
/-! SUPPORT. Slices,
  byte orders and the check of one message: what each shared operation answers. -/

namespace Sys2Proof.Machine

/-! ### Byte orders -/

/-- Reading the first byte as the most significant is reading the reversed string (R14). -/
theorem be_eq_le_reverse (t : List Byte) : be t = le t.reverse := by
  have happ : ∀ (a : List Byte) (b : Byte), le (a ++ [b]) = le a + 256 ^ a.length * b.toNat := by
    intro a b
    induction a with
    | nil => simp [le]
    | cons x a ih => simp only [List.cons_append, le, ih, List.length_cons, pow_succ]; ring
  induction t with
  | nil => rfl
  | cons b t ih => rw [List.reverse_cons, happ, ← ih, be, List.length_reverse]; ring

@[simp] theorem leBytes_length (n v : Nat) : (leBytes n v).length = n := by simp [leBytes]

/-- The two serialisations are each other's reverse (R14). -/
theorem beBytes_eq_reverse (n v : Nat) : beBytes n v = (leBytes n v).reverse := by
  apply List.ext_getElem
  · simp [beBytes, leBytes]
  · intro i h1 h2
    simp [beBytes, leBytes] at *

theorem leBytes_succ (n v : Nat) : leBytes (n+1) v = BitVec.ofNat 8 v :: leBytes n (v / 256) := by
  unfold leBytes
  rw [List.range_succ_eq_map]
  simp [Nat.div_div_eq_div_mul]
  intro a ha
  congr 2
  rw [Nat.mul_add, pow_add]; ring_nf

theorem writeTrailer_length (c : CfgRegs) (crc : Nat) :
    (c.writeTrailer crc).length = c.trailerLen := by
  unfold CfgRegs.writeTrailer; split
  · exact leBytes_length _ _
  · rw [beBytes_eq_reverse]; simp

/-! ### The parts of a message -/

theorem slice_eq (s : List Byte) (a b : Nat) : slice s a b = (s.drop a).take (b - a) := by
  unfold slice; rw [List.drop_take]

/-- The trailer is what stands after the first L - TL bytes (R155). -/
theorem trailer_eq (c : CfgRegs) (p : List Byte) : c.trailer p =
  p.drop (p.length - c.trailerLen) := by
  unfold CfgRegs.trailer slice; rw [List.take_length]

/-- The region is what stands between header and trailer (R153). -/
theorem region_eq (c : CfgRegs) (p : List Byte) : c.region p =
  (p.drop c.skipLen).take (p.length - c.skipLen - c.trailerLen) := by
  unfold CfgRegs.region; rw [slice_eq]; congr 1; omega

/-- The width of a configuration that passes validation (R6, R197). -/
theorem width_of_valid {c : CfgRegs} (h : validate c = .none) :
    c.width % 8 = 0 ∧ 8 ≤ c.width ∧ c.width ≤ 64 := by
  unfold validate at h; unfold CfgRegs.width
  split at h
  · cases h
  · split at h
    · cases h
    · omega

/-- TL bytes hold exactly the values of W bits (R155). -/
theorem trailer_values {c : CfgRegs} (h : validate c = .none) :
    256 ^ c.trailerLen = 2 ^ c.width := by
  obtain ⟨h1, h2, h3⟩ := width_of_valid h
  have : c.width = 8 * c.trailerLen := by unfold CfgRegs.trailerLen; omega
  conv_rhs => rw [this, pow_mul]
  norm_num

/-! ### The check -/

/-- When a check accepts. -/
theorem checkPdu_accepts_iff {c : CfgRegs} {m : Message} :
    (∃ f, checkPdu c m = .accepted f) ↔
      c.skipLen + c.trailerLen ≤ m.bytes.length ∧
        crcCompute c (c.region m.bytes) = c.readTrailer (c.trailer m.bytes) := by
  unfold checkPdu CfgRegs.tooShort CfgRegs.expected CfgRegs.stored
  by_cases h1 : m.bytes.length < c.skipLen + c.trailerLen
  · simp [h1]
  · by_cases h2 : crcCompute c (c.region m.bytes) = c.readTrailer (c.trailer m.bytes)
    · simp [h1, h2]; omega
    · simp [h1, h2]

/-- A check rejects with the message itself, exactly when it does not accept (R159). -/
theorem checkPdu_rejects_iff {c : CfgRegs} {m : Message} :
    checkPdu c m = .rejected m ↔ ¬ ∃ f, checkPdu c m = .accepted f := by
  unfold checkPdu
  split
  · simp
  · split <;> simp

/-- What a check forwards (R157, R160). -/
theorem checkPdu_forwards {c : CfgRegs} {m fwd : Message} (h : checkPdu c m = .accepted fwd) :
    fwd = { bytes := c.forwarded m.bytes, info := m.info } := by
  unfold checkPdu at h; split at h
  · cases h
  · split at h <;> cases h; rfl

/-- A check of a payload with a trailer of TL bytes. -/
theorem checkPdu_append (c : CfgRegs) (p t : List Byte) (i : Meta) (ht : t.length = c.trailerLen) :
    checkPdu c ⟨p ++ t, i⟩ = if p.length < c.skipLen then .rejected ⟨p ++ t, i⟩ else
      if crcCompute c (p.drop c.skipLen) = c.readTrailer t then .accepted ⟨if c.discardCrc then
        p else p ++ t, i⟩ else .rejected ⟨p ++ t, i⟩ := by
  unfold checkPdu
  have h1 : c.tooShort (p ++ t) = decide (p.length < c.skipLen) := by
    unfold CfgRegs.tooShort; rw [List.length_append, ht]; congr 1; apply propext; omega
  simp only [h1, decide_eq_true_eq]
  split
  · rfl
  · have h2 : c.stored (p ++ t) = c.readTrailer t := by
      unfold CfgRegs.stored; rw [trailer_eq]; congr 1
      rw [List.length_append, ht, Nat.add_sub_cancel]; simp
    have h3 : c.expected (p ++ t) = crcCompute c (p.drop c.skipLen) := by
      unfold CfgRegs.expected CfgRegs.region slice
      rw [List.length_append, ht, Nat.add_sub_cancel]; simp
    have h4 : c.forwarded (p ++ t) = if c.discardCrc then p else p ++ t := by
      unfold CfgRegs.forwarded slice
      rw [List.length_append, ht, Nat.add_sub_cancel]; simp
    rw [h2, h3, h4]

end Sys2Proof.Machine
end

