-- ==== Sys2Proof/Tests/Slice0.lean ====
section
/-! SUPPORT. The model's own tests. The expected values are the spec's vectors (95_test_vectors.md,
V1 to V55) and examples, written out by hand. -/

namespace Sys2Proof.Tests

-- One theorem at a time: a thread for each kernel evaluation takes too much memory.
set_option Elab.async false

open Sys2Proof.Machine

/-! ### Helpers -/

/-- The bytes of "123456789". -/
def digits : List Byte := [0x31, 0x32, 0x33, 0x34, 0x35, 0x36, 0x37, 0x38, 0x39]

/-- The configuration CRC32 of 95_test_vectors.md with SKIP and the two upper flags. -/
def crc32 (skip : Word) (upper : Word) : CfgRegs :=
  ⟨32, 0x04C11DB7, 0xFFFFFFFF, 0xFFFFFFFF, 3 ||| upper, skip⟩

/-- The configuration CCITT of 95_test_vectors.md. -/
def ccitt (upper : Word) : CfgRegs := ⟨16, 0x1021, 0xFFFF, 0, upper, 0⟩

/-- The configuration CRC8 of 95_test_vectors.md. -/
def crc8 (upper : Word) : CfgRegs := ⟨8, 0x07, 0, 0, upper, 0⟩

/-- A message with the metadata value m0. -/
def msg (bytes : List Byte) : Message := ⟨bytes, .m0⟩

/-- A READY block with the given configuration and messages in IN. -/
def ready (c : CfgRegs) (q : List Message) : State :=
  { State.reset with cfg := c, lifecycle := .ready, inQ := q }

/-- An unconfigured block with the given configuration registers. -/
def fresh (c : CfgRegs) : State := { State.reset with cfg := c }

/-- A block whose construction failed with cause 1, with NUM_BITS = 12. -/
def broken : State :=
  { State.reset with
    cfg := { CfgRegs.reset with numBits := 12 }
    lifecycle := .configError
    cause := .numBitsNotMultipleOf8 }

/-- The state after an outcome, or the reset state when there is none. -/
def after (o : Host.Outcome State Fault Refusal) : State :=
  match o with
  | .next s => s
  | .fault _ | .refused _ => State.reset

/-- The reason for which an outcome is a refusal. -/
def reasonOf (o : Host.Outcome State Fault Refusal) : Option Refusal :=
  match o with
  | .refused r => some r
  | .next _ | .fault _ => none

/-! ### WellFormed -/

/-- The one check: a message one byte longer than P_MAX_PDU_BYTES is ill formed. -/
theorem test_wellFormed_refuses_long_pdu :
    (Instr.submit (msg (List.replicate (Config.maxPduBytes + 1) 0))).wellFormed = false := by
  simp [Instr.wellFormed, Message.wellFormed, msg]

theorem test_wellFormed_accepts_longest_pdu :
    (Instr.submit (msg (List.replicate Config.maxPduBytes 0))).wellFormed = true := by
  simp [Instr.wellFormed, Message.wellFormed, msg]

theorem test_wellFormed_accepts_empty_pdu : (Instr.submit (msg [])).wellFormed = true := by
  simp [Instr.wellFormed, Message.wellFormed, msg]

/-! ### Decoding: words from R97 and V54 -/

theorem test_decode_reads :
    [0x00, 0x01, 0x02, 0x03, 0x04, 0x05, 0x06, 0x07].map (decodeTableWord 8) =
      [some .rdNumBits, some .rdPoly, some .rdInit, some .rdXorout, some .rdFlags, some .rdSkip,
        some .rdCmd, some .rdStatus] := by decide

theorem test_decode_writes :
    [0x2080, 0x102181, 0xFFFF82, 0x183, 0x3084, 0x285, 0x123487].map (decodeTableWord 72) =
      [some (.wrNumBits 0x20), some (.wrPoly 0x1021), some (.wrInit 0xFFFF), some (.wrXorout 1),
        some (.wrFlags 0x30), some (.wrSkip 2), some (.wrStatus 0x1234)] := by decide

/-- CONSTRUCT is the header 0x86 with DATA = 1 (R106, R111). -/
theorem test_decode_construct : decodeTableWord 72 0x186 = some .construct := by decide

/-- The header 0x86 alone has DATA = 0, which is a reserved command (R106, log entry 7). -/
theorem test_decode_construct_word_without_data : decodeTableWord 8 0x86 = none := by decide

theorem test_decode_top_data_bit :
    decodeTableWord 72 0x800000000000000081 = some (.wrPoly 0x8000000000000000) := by decide

theorem test_decode_refusals :
    [decode (.reg 0x86 0), decode (.reg 0x86 3), decode (.reg 0x08 1), decode (.reg 0x40 1),
      decode (.reg 0xFF 1), decode (.reg 0x8E 1)] =
    [.reject .reservedCommand, .reject .reservedCommand, .reject .reservedHeader,
      .reject .reservedHeader, .reject .reservedHeader, .reject .reservedHeader] := by decide

theorem test_decode_submit : decode (.pdu (msg [])) = .instr (.submit (msg [])) := by
  simp [decode, decodePdu, Message.wellFormed, msg]

theorem test_decode_refuses_long_pdu :
    decode (.pdu (msg (List.replicate (Config.maxPduBytes + 1) 0))) = .reject .pduTooLong := by
  simp [decode, decodePdu, Message.wellFormed, msg]

/-- Program 1, line 1 and 2, and the read of STATUS: the encodings of 95_test_vectors.md. -/
theorem test_encode_program :
    [encode (.wrNumBits 32), encode (.wrFlags 3), encode .construct, encode .rdStatus] =
      [.reg 0x80 0x20, .reg 0x84 3, .reg 0x86 1, .reg 0x07 0] := by decide

/-! ### Operand forms: V7, R14 -/

theorem test_rev :
    (rev (0x31#8), rev (0x1234#16), rev (0x04C11DB7#32)) = (0x8C#8, 0x2C48#16, 0xEDB88320#32) := by
  decide +kernel

theorem test_byte_orders :
    (be [0x26, 0x39, 0xF4, 0xCB], le [0x26, 0x39, 0xF4, 0xCB]) = (0x2639F4CB, 0xCBF43926) ∧
      beBytes 3 0x21CF02 = [0x21, 0xCF, 0x02] ∧ leBytes 3 0x21CF02 = [0x02, 0xCF, 0x21] := by
  decide

theorem test_slice : slice digits 1 4 = [0x32, 0x33, 0x34] := by decide

/-! ### The engine: V1 to V18 -/

/-- V3: the first three BitSteps of CRC32. -/
theorem test_bitStep :
    [bitStep 0x04C11DB7#32 0xFFFFFFFF true, bitStep 0x04C11DB7#32 0xFFFFFFFE false,
      bitStep 0x04C11DB7#32 0xFB3EE24B false] = [0xFFFFFFFE, 0xFB3EE24B, 0xF2BCD921] := by
  decide

/-- V2, V6: the register after the first byte. -/
theorem test_byteStep :
    byteStep 0x04C11DB7#32 0xFFFFFFFF 0x8C = 0x1208C43E ∧
      byteStep 0x1021#16 0xFFFF 0x31 = 0xC782 := by decide

/-- V1, V5. -/
theorem test_crc_check_values :
    [crcCompute (crc32 0 0) digits, crcCompute (ccitt 0) digits, crcCompute (crc8 0) digits,
      crcCompute ⟨8, 0x31, 0, 0, 3, 0⟩ digits, crcCompute ⟨24, 0x864CFB, 0xB704CE, 0, 0, 0⟩ digits,
      crcCompute ⟨40, 0x0004820009, 0, 0xFFFFFFFFFF, 0, 0⟩ digits,
      crcCompute ⟨48, 0x123456789ABC, 0xFFFFFFFFFFFF, 0, 1, 0⟩ digits,
      crcCompute ⟨56, 0, 0x11223344556677, 0, 2, 0⟩ digits,
      crcCompute ⟨64, 0x42F0E1EBA9EA3693, 0xFFFFFFFFFFFFFFFF, 0xFFFFFFFFFFFFFFFF, 3, 0⟩ digits] =
    [0xCBF43926, 0x29B1, 0xF4, 0xA1, 0x21CF02, 0xD4164FC646, 0xE8A0027AEF6C, 0,
      0x995DC9BBDF1939FA] := by decide +kernel

/-- V8: the empty input. -/
theorem test_crc_empty :
    [crcCompute (crc32 0 0) [], crcCompute ⟨16, 0x1021, 0x1234, 0, 2, 0⟩ [],
      crcCompute ⟨56, 0, 0x11223344556677, 0, 2, 0⟩ []] = [0, 0x2C48, 0xEE66AA22CC4488] := by
  decide +kernel

/-- V9: the reflection comes before the final XOR. -/
theorem test_crc_reflects_before_xor :
    crcCompute ⟨16, 0x1021, 0, 1, 3, 0⟩ digits = 0x2188 := by decide +kernel

/-- V10: the zero polynomial. -/
theorem test_crc_zero_polynomial :
    [crcCompute ⟨16, 0, 0x1234, 0, 0, 0⟩ [0x01], crcCompute ⟨16, 0, 0x1234, 0, 0, 0⟩ [0xFF, 0x00]] =
      [0x3400, 0] := by decide +kernel

/-- V11, V12, V13: bits at W and above. -/
theorem test_crc_masks_wide_values :
    [crcCompute ⟨32, 0xFFFFFFFF04C11DB7, 0xFFFFFFFF, 0xFFFFFFFF, 3, 0⟩ digits,
      crcCompute ⟨16, 0x1021, 0xABCDFFFF, 0xFFFF0000, 0, 0⟩ digits] = [0xCBF43926, 0x29B1] := by
  decide +kernel

/-- V14: one reflection flag only. -/
theorem test_crc_flags_are_independent :
    [crcCompute ⟨16, 0x8005, 0, 0, 1, 0⟩ digits, crcCompute ⟨16, 0x8005, 0, 0, 2, 0⟩ digits] =
      [0xBCDD, 0x177F] := by decide +kernel

/-- V15, V16: the table and the right-shifting register. -/
theorem test_other_forms :
    [crcTable 0x04C11DB7#32 0x01, crcTable 0x04C11DB7#32 0xFF] = [0x04C11DB7, 0xB1F740B4] ∧
      rightByteStep (rev 0x04C11DB7#32) 0xFFFFFFFF 0x31 = 0x7C231048 ∧
      crcRightShift (crc32 0 0) digits = 0xCBF43926 ∧
      natCrcCompute 16 0x1021 0xFFFF 0 false false (digits.map BitVec.toNat) = 0x29B1 := by
  decide +kernel

/-! ### SUBMIT: V20 to V42 -/

/-- V20, V21, V22, V27, V28. -/
theorem test_submit_accepts :
    [checkPdu (crc32 0 0) (msg (digits ++ [0xCB, 0xF4, 0x39, 0x26])),
      checkPdu (crc32 0 8) (msg (digits ++ [0xCB, 0xF4, 0x39, 0x26])),
      checkPdu (crc32 0 12) (msg (digits ++ [0x26, 0x39, 0xF4, 0xCB])),
      checkPdu (crc32 0 8) (msg [0, 0, 0, 0]),
      checkPdu (crc32 2 8) (msg [0xAA, 0xBB, 0, 0, 0, 0])] =
    [.accepted (msg (digits ++ [0xCB, 0xF4, 0x39, 0x26])), .accepted (msg digits),
      .accepted (msg digits), .accepted (msg []), .accepted (msg [0xAA, 0xBB])] := by
  decide +kernel

/-- V23, V24, V25, V29, V32. -/
theorem test_submit_rejects :
    [checkPdu (crc32 0 8) (msg (digits ++ [0x26, 0x39, 0xF4, 0xCB])),
      checkPdu (crc32 0 12) (msg (digits ++ [0xCB, 0xF4, 0x39, 0x26])),
      checkPdu (crc32 0 8) (msg []), checkPdu (crc32 2 8) (msg [0xAA, 0, 0, 0, 0]),
      checkPdu (crc32 0x8000000000000000 0) (msg (digits ++ [0xCB, 0xF4, 0x39, 0x26]))] =
    [.rejected (msg (digits ++ [0x26, 0x39, 0xF4, 0xCB])),
      .rejected (msg (digits ++ [0xCB, 0xF4, 0x39, 0x26])), .rejected (msg []),
      .rejected (msg [0xAA, 0, 0, 0, 0]),
      .rejected (msg (digits ++ [0xCB, 0xF4, 0x39, 0x26]))] := by decide +kernel

/-- V30, V33, V36, V37, V41. -/
theorem test_submit_other_widths :
    [checkPdu (crc32 2 8) (msg ([0xDE, 0xAD] ++ digits ++ [0xCB, 0xF4, 0x39, 0x26])),
      checkPdu (ccitt 8) (msg (digits ++ [0x29, 0xB1])), checkPdu (crc8 8) (msg [0x01, 0x07]),
      checkPdu (crc8 12) (msg [0x01, 0x07]),
      checkPdu ⟨64, 0x42F0E1EBA9EA3693, 0xFFFFFFFFFFFFFFFF, 0xFFFFFFFFFFFFFFFF, 15, 0⟩
        (msg (digits ++ [0xFA, 0x39, 0x19, 0xDF, 0xBB, 0xC9, 0x5D, 0x99]))] =
    [.accepted (msg ([0xDE, 0xAD] ++ digits)), .accepted (msg digits), .accepted (msg [0x01]),
      .accepted (msg [0x01]), .accepted (msg digits)] := by decide +kernel

/-- V36 as a step of the block: the message moves from IN to OK. -/
theorem test_submit_step :
    let t := after (step (ready (crc8 8) [msg [0x01, 0x07], msg []]))
    (t.inQ, t.okQ, t.failQ) = ([msg []], [msg [0x01]], []) := by decide

/-- R8: the meta value of the operand is not looked at, and the one in IN is passed on. -/
theorem test_submit_passes_meta (a b : Meta) :
    exec (.submit ⟨[0x01, 0x07], b⟩) (ready (crc8 8) [⟨[0x01, 0x07], a⟩]) =
      .next { ready (crc8 8) [] with okQ := [⟨[0x01], a⟩] } := by
  have short : (crc8 8).tooShort [0x01, 0x07] = false := by decide
  have equal : (crc8 8).expected [0x01, 0x07] = (crc8 8).stored [0x01, 0x07] := by decide
  have check : checkPdu (crc8 8) ⟨[0x01, 0x07], a⟩ = .accepted ⟨[0x01], a⟩ := by
    simp only [checkPdu, short, equal]
    rfl
  simp only [exec, execSubmit, ready, and_self, if_true, check]
  rfl

/-- R214: in UNCONFIGURED the message waits. -/
theorem test_submit_waits :
    let t := after (step { fresh (crc8 0) with inQ := [msg [0x01, 0x07]] })
    (t.inQ, t.okQ, t.failQ) = ([msg [0x01, 0x07]], [], []) := by decide

/-! ### Reads and writes: V50, V52, V55 -/

/-- V50: every read after reset returns 0. -/
theorem test_reads_after_reset :
    (after (run 8 (State.reset.withMoves ([0x00, 0x01, 0x02, 0x03, 0x04, 0x05, 0x06, 0x07].map
      fun h => Move.reg h 0)))).responses = [0, 0, 0, 0, 0, 0, 0, 0] := by decide

/-- Each read returns its own register: six different values. -/
theorem test_reads_return_their_register :
    [Instr.rdNumBits, .rdPoly, .rdInit, .rdXorout, .rdFlags, .rdSkip].map
      (fun i => (after (exec i (fresh ⟨1, 2, 3, 4, 5, 6⟩))).responses) =
    [[1], [2], [3], [4], [5], [6]] := by decide

/-- R187, R188: CMD reads 0, and STATUS in CONFIG_ERROR with cause 1 reads 0x12. -/
theorem test_read_cmd_and_status :
    ((after (exec .rdCmd broken)).responses, (after (exec .rdStatus broken)).responses) =
      ([0], [0x12]) := by decide

/-- Each write changes its own register. -/
theorem test_writes_store_in_their_register :
    [Instr.wrNumBits 9, .wrPoly 9, .wrInit 9, .wrXorout 9, .wrFlags 9, .wrSkip 9].map
      (fun i => (after (exec i (fresh ⟨1, 2, 3, 4, 5, 6⟩))).cfg) =
    [⟨9, 2, 3, 4, 5, 6⟩, ⟨1, 9, 3, 4, 5, 6⟩, ⟨1, 2, 9, 4, 5, 6⟩, ⟨1, 2, 3, 9, 5, 6⟩,
      ⟨1, 2, 3, 4, 9, 6⟩, ⟨1, 2, 3, 4, 5, 9⟩] := by decide

/-- V52, V53: writes are ignored in READY and in CONFIG_ERROR. -/
theorem test_writes_are_frozen :
    exec (.wrSkip 0) (ready (crc32 2 0) []) = .next (ready (crc32 2 0) []) ∧
      exec (.wrNumBits 16) broken = .next broken := ⟨rfl, rfl⟩

/-- V55: all 64 bits are stored. -/
theorem test_write_stores_all_bits :
    (after (exec (.wrPoly 0x104C11DB7) State.reset)).cfg.poly = 0x104C11DB7 := by decide

/-- V53: a write of STATUS leaves 0x12. -/
theorem test_write_status : (after (exec (.wrStatus 0) broken)).status = 0x12 := by decide

/-! ### CONSTRUCT: V51 to V53 -/

theorem test_construct_status :
    ([(0, 0), (7, 0), (8, 0), (12, 0), (64, 0), (65, 0), (72, 0), (0x8000000000000000, 0),
      (32, 0x10), (32, 0x8000000000000003), (12, 0x10), (72, 0x10), (32, 0xF)].map
      fun (p : Word × Word) =>
        (after (exec .construct (fresh ⟨p.1, 0, 0, 0, p.2, 0⟩))).status) =
    [0x22, 0x12, 0x01, 0x12, 0x01, 0x12, 0x22, 0x22, 0x32, 0x32, 0x12, 0x22, 0x01] := by
  decide

/-- V53: CONFIG_ERROR is terminal. -/
theorem test_construct_once : exec .construct broken = .next broken := rfl

/-! ### Steps of the agents -/

/-- Program 3, line 9: RESET clears the registers and STATUS and keeps IN. -/
theorem test_reset_keeps_channels :
    step { broken with inQ := [msg [0x01, 0x07]], moves := [.reset] } =
      .next { State.reset with inQ := [msg [0x01, 0x07]] } := rfl

/-- R252: the downstream removes the head of OK. -/
theorem test_removeOk :
    (after (step { State.reset with okQ := [msg [1], msg [2]], moves := [.removeOk] })).okQ =
      [msg [2]] := by decide

/-- A word of the opcode table, placed where the next step takes its operation. -/
theorem test_withFetchWord :
    (after (step (State.reset.withFetchWord 72 0x1080))).cfg.numBits = 16 := by decide

/-- R215: the three refusals. -/
theorem test_refusals :
    reasonOf (step { State.reset with moves := [.reg 0x08 0] }) = some .reservedHeader ∧
      reasonOf (step { State.reset with moves := [.reg 0x86 0] }) = some .reservedCommand := by
  decide

/-! ### The assembly language: R110, R111 -/

/-- `RD STATUS ; x` and `WR FLAGS, {IN_REFL,DISCARD_CRC}`, with the braces written as characters. -/
theorem test_assemble_lines :
    assembleText (fun _ => .m0)
      [['R', 'D', ' ', 'S', 'T', 'A', 'T', 'U', 'S', ' ', ';', ' ', 'x'],
        ['W', 'R', ' ', 'F', 'L', 'A', 'G', 'S', ',', ' ', Char.ofNat 123, 'I', 'N', '_', 'R', 'E',
          'F', 'L', ',', 'D', 'I', 'S', 'C', 'A', 'R', 'D', '_', 'C', 'R', 'C', Char.ofNat 125]] =
    some [.reg 0x07 0, .reg 0x84 9] := by decide

/-- `SUBMIT "12" ++ [CB f4], meta=a`. -/
theorem test_assemble_submit :
    readLine ['S', 'U', 'B', 'M', 'I', 'T', ' ', '"', '1', '2', '"', ' ', '+', '+', ' ', '[', 'C', 'B',
      ' ', 'f', '4', ']', ',', ' ', 'm', 'e', 't', 'a', '=', 'a'] =
    some (some (.submit [[0x31, 0x32], [0xCB, 0xF4]] ['a'])) := by decide

/-- The model's choice of log entry 10: a hexbyte is two digits. -/
theorem test_assemble_hexbyte_is_two_digits :
    readLine ['S', 'U', 'B', 'M', 'I', 'T', ' ', '[', '7', ']'] = none ∧
      readLine ['S', 'U', 'B', 'M', 'I', 'T', ' ', '[', '3', '1', '3', '2', ']'] = none := by decide

/-! ### Witnesses: states and operands that meet the hypotheses of a statement, one per clause -/

/-- Accepted under CRC32: V20. -/
def good : Message := msg (digits ++ [0xCB, 0xF4, 0x39, 0x26])

/-- Its trailer in the other byte order: V23. -/
def swapped : Message := msg (digits ++ [0x26, 0x39, 0xF4, 0xCB])

/-- V31, with a header of two bytes. -/
def headed : Message := msg ([0, 0] ++ digits ++ [0xCB, 0xF4, 0x39, 0x26])

theorem witness_ResetIsTheOnlyWayOut :
    ({ broken with moves := [.reset] } : State).moves = .reset :: [] ∧
      ∃ t, step { broken with moves := [.reg 0x80 16] } = .next t ∧
        broken.lifecycle ≠ .unconfigured ∧
        ∀ rest, ({ broken with moves := [.reg 0x80 16] } : State).moves ≠ .reset :: rest :=
  ⟨rfl, _, rfl, by decide, by simp⟩

theorem witness_ReadsChangeNoBlockState :
    Instr.rdStatus ∈
      [Instr.rdNumBits, .rdPoly, .rdInit, .rdXorout, .rdFlags, .rdSkip, .rdCmd, .rdStatus] := by
  decide

theorem witness_ConfigWritesStoreOnlyWhileUnconfigured :
    (fresh (crc8 0)).lifecycle = .unconfigured ∧ (ready (crc8 0) []).lifecycle ≠ .unconfigured ∧
      broken.lifecycle ≠ .unconfigured := by decide

theorem witness_WriteThenReadBack :
    State.reset.lifecycle = .unconfigured ∧ (0#3).toNat < 6 ∧ (5#3).toNat < 6 := by decide

theorem witness_ConstructValidatesOnce :
    ((fresh (crc8 0)).lifecycle = .unconfigured ∧ validate (fresh (crc8 0)).cfg = .none) ∧
      (State.reset.lifecycle = .unconfigured ∧ validate State.reset.cfg ≠ .none) ∧
      broken.lifecycle ≠ .unconfigured := by decide

theorem witness_ConstructSucceedsForEightWidths :
    (fresh (crc8 0)).lifecycle = .unconfigured := rfl

theorem witness_BootWritesInAnyOrderThenConstruct :
    (configWrites (crc8 0)).reverse.Perm (configWrites (crc8 0)) := List.reverse_perm _

theorem witness_BitStepFollowsItsFormula : 1 ≤ 1 ∧ 1 ≤ 64 := by decide

theorem witness_EngineRefinesReferenceSemantics :
    validate (crc8 0) = .none ∧
      validate ⟨64, 0x1B, 0, 0, 15, 0⟩ = .none := by decide

theorem witness_ZeroPolynomialSeesOnlyTheLength :
    let c : CfgRegs := ⟨8, 0x100, 0x5A, 0, 0, 0⟩
    1 ≤ c.width ∧ c.polyW = 0 ∧ c.width ≤ 8 * [0x01#8].length := by decide

theorem witness_EngineReadsOnlyMaskedValues :
    let c := ccitt 0
    let d : CfgRegs := ⟨16, 0x71021, 0xABCDFFFF, 0xFFFF0000, 12, 7⟩
    c ≠ d ∧ c.numBits = d.numBits ∧
      c.poly.toNat &&& mask c.width = d.poly.toNat &&& mask d.width ∧
      c.init.toNat &&& mask c.width = d.init.toNat &&& mask d.width ∧
      c.xorout.toNat &&& mask c.width = d.xorout.toNat &&& mask d.width ∧
      c.inRefl = d.inRefl ∧ c.outRefl = d.outRefl := by decide

theorem witness_TableFormEqualsByteStep : 8 ≤ 8 ∧ 8 ≤ 64 := by decide

theorem witness_RightShiftFormEqualsEngine :
    (8 ≤ (crc32 0 0).width ∧ (crc32 0 0).inRefl = true ∧ (crc32 0 0).outRefl = true) ∧
      (8 ≤ (crc8 3).width ∧ (crc8 3).inRefl = true ∧ (crc8 3).outRefl = true) := by
  decide

theorem witness_CrcIsAffine : ([0x31, 0x32] : List Byte).length = ([0, 1] : List Byte).length := rfl

theorem witness_SingleBitFlipChangesCrc :
    validate (crc32 0 0) = .none ∧ 8 < digits.length ∧ 7 < 8 := by decide

theorem witness_ShortPduGoesToFailUnmodified :
    let s := ready (crc32 2 0) [msg [1, 2, 3, 4, 5], msg []]
    s.lifecycle = .ready ∧ s.inQ = msg [1, 2, 3, 4, 5] :: [msg []] ∧
      (msg [1, 2, 3, 4, 5]).bytes.length < s.cfg.skip.toNat + s.cfg.numBits.toNat / 8 := by
  decide

/-- Both clauses, with both byte orders: V28 with SWAP_ENDIAN, and V23. -/
theorem witness_TrailerDecidesTheChannel :
    let m := msg [0xAA, 0xBB, 0, 0, 0, 0]
    let s := ready (crc32 2 12) [m]
    let t := ready (crc32 0 8) [swapped]
    (s.lifecycle = .ready ∧ s.inQ = m :: [] ∧
        s.cfg.skip.toNat + s.cfg.numBits.toNat / 8 ≤ m.bytes.length ∧
        s.cfg.flags.getLsbD 2 = true ∧
        crcCompute s.cfg ((m.bytes.drop 2).take 0) = le (m.bytes.drop 2)) ∧
      (t.lifecycle = .ready ∧ t.inQ = swapped :: [] ∧
        t.cfg.skip.toNat + t.cfg.numBits.toNat / 8 ≤ swapped.bytes.length ∧
        t.cfg.flags.getLsbD 2 = false ∧
        crcCompute t.cfg ((swapped.bytes.drop 0).take 9) ≠ be (swapped.bytes.drop 9)) := by
  decide +kernel

/-- The last two clauses: a trailer that equals the CRC of no bytes, and one that differs. -/
theorem witness_EmptyRegionIsCheckedAgainstEmptyCrc :
    let m := msg [0xAA, 0xBB, 0, 0, 0, 0]
    let n := msg [0xAA, 0xBB, 0, 0, 0, 1]
    let s := ready (crc32 2 0) [m]
    let t := ready (crc32 2 0) [n]
    let empty := ((if s.cfg.outRefl then rev (s.cfg.init.setWidth s.cfg.width)
      else s.cfg.init.setWidth s.cfg.width) ^^^ s.cfg.xorout.setWidth s.cfg.width).toNat
    (s.lifecycle = .ready ∧ s.inQ = m :: [] ∧
        m.bytes.length = s.cfg.skip.toNat + s.cfg.numBits.toNat / 8 ∧
        be (m.bytes.drop s.cfg.skip.toNat) = empty) ∧
      (t.lifecycle = .ready ∧ t.inQ = n :: [] ∧
        n.bytes.length = t.cfg.skip.toNat + t.cfg.numBits.toNat / 8 ∧
        be (n.bytes.drop t.cfg.skip.toNat) ≠ empty) := by decide +kernel

theorem witness_OversizedSkipRejectsEveryPdu :
    let s := ready (crc32 0xFFFFFFFFFFFFFFFF 0) [good]
    s.lifecycle = .ready ∧ s.inQ = good :: [] ∧ good.bytes.length ≤ 13 ∧
      13 < s.cfg.skip.toNat + s.cfg.numBits.toNat / 8 := by decide

theorem witness_CheckWaitsUnlessEnabled :
    (({ broken with inQ := [good], moves := [.check] } : State).lifecycle ≠ .ready ∧
        ({ broken with inQ := [good], moves := [.check] } : State).moves = .check :: []) ∧
      (({ ready (crc8 0) [] with moves := [.check] } : State).inQ = [] ∧
        ({ ready (crc8 0) [] with moves := [.check] } : State).moves = .check :: []) ∧
      ((ready (crc8 0) []).inQ = [] ∧ (ready (crc8 0) []).moves = []) ∧
      (fresh (crc8 0)).lifecycle ≠ .ready ∧
      (ready (crc8 0) [good]).inQ.head?.map Message.bytes ≠ some swapped.bytes := by decide

theorem witness_CheckRoutesToExactlyOneChannel :
    (ready (crc32 0 0) [good]).lifecycle = .ready ∧ (ready (crc32 0 0) [good]).inQ = good :: [] ∧
      checkPdu (crc32 0 0) good = .accepted good ∧
      checkPdu (crc32 0 0) swapped = .rejected swapped := by decide +kernel

theorem witness_TrailerBytesReadBack : 0 < 256 ^ 0 ∧ 255 < 256 ^ 1 := by decide

/-- Both clauses: a payload of exactly SKIP bytes, and one shorter than SKIP. -/
theorem witness_RoundTripIsAccepted :
    let c := crc32 2 8
    let t (p : List Byte) := c.writeTrailer (crcCompute c (p.drop c.skipLen))
    let s (p : List Byte) := ready c [msg (p ++ t p)]
    validate c = .none ∧
      ((s [1, 2]).lifecycle = .ready ∧ (s [1, 2]).inQ = ⟨[1, 2] ++ t [1, 2], Meta.m0⟩ :: [] ∧
        c.skipLen ≤ ([1, 2] : List Byte).length) ∧
      ((s [1]).lifecycle = .ready ∧ (s [1]).inQ = ⟨[1] ++ t [1], Meta.m0⟩ :: [] ∧
        ([1] : List Byte).length < c.skipLen) := by decide +kernel

theorem witness_HeaderBytesDoNotDecide :
    let n := msg ([7, 8] ++ digits ++ [0xCB, 0xF4, 0x39, 0x26])
    validate (crc32 2 0) = .none ∧ headed.bytes.length = n.bytes.length ∧
      headed.bytes.drop (crc32 2 0).skipLen = n.bytes.drop (crc32 2 0).skipLen := by
  decide

/-- The three clauses, at the bytes where they meet: 1 and 2, and 10 and 11. -/
theorem witness_SingleBitCorruptionIsDetected :
    let c := crc32 2 0
    validate c = .none ∧ checkPdu c headed = .accepted headed ∧
      (1 < headed.bytes.length ∧ 1 < c.skipLen) ∧
      (2 < headed.bytes.length ∧ c.skipLen ≤ 2 ∧ 2 < headed.bytes.length - c.trailerLen) ∧
      (c.skipLen ≤ 10 ∧ 10 < headed.bytes.length - c.trailerLen) ∧
      (11 < headed.bytes.length ∧ headed.bytes.length - c.trailerLen ≤ 11) := by decide +kernel

theorem witness_ByteOrderIrrelevantForOneByte : (crc8 4).numBits = 8 := rfl

/-- A trailer that differs from its reverse, and one of one byte that does not. -/
theorem witness_SwappedTrailerIsRejected :
    (validate (crc32 0 0) = .none ∧ (crc32 0 0).skipLen ≤ digits.length ∧
        ((crc32 0 0).writeTrailer (crcCompute (crc32 0 0) digits)).reverse ≠
          (crc32 0 0).writeTrailer (crcCompute (crc32 0 0) digits)) ∧
      (validate (crc8 0) = .none ∧
        ((crc8 0).writeTrailer (crcCompute (crc8 0) digits)).reverse =
          (crc8 0).writeTrailer (crcCompute (crc8 0) digits)) := by decide +kernel

theorem witness_HeadersDecodeByTheTable :
    (0 : Word) ≠ 1 ∧ (msg []).bytes.length ≤ Config.maxPduBytes ∧
      (msg (List.replicate Config.maxPduBytes 0)).bytes.length ≤ Config.maxPduBytes := by
  simp [msg]

theorem witness_DisassemblyAssemblesBack :
    (∃ r, decode (.reg 0x86 0) = .reject r) ∧ (∃ op, disassemble 0x86 1 = some op) ∧
      ∃ op, disassemble 0x05 9 = some op := ⟨⟨_, rfl⟩, ⟨_, rfl⟩, ⟨_, rfl⟩⟩

theorem witness_PrintedTextReadsBack :
    (∃ text, printReg 0x07 9 = some text) ∧ ∃ text, printReg 0x84 0xFFFFFFFFFFFFFFFF = some text :=
  ⟨⟨_, rfl⟩, ⟨_, rfl⟩⟩

theorem witness_PresetSetsFiveRegisters :
    (fresh ⟨1, 2, 3, 4, 5, 6⟩).lifecycle = .unconfigured := rfl

/-- The six clauses of what a step does. -/
theorem witness_StepRunsTheDecodedOperation :
    (({ State.reset with moves := [.reg 0x86 1] } : State).moves = .reg 0x86 1 :: [] ∧
        decode (.reg 0x86 1) = .instr .construct) ∧
      (({ ready (crc8 0) [good] with moves := [.check] } : State).moves = .check :: [] ∧
        ({ ready (crc8 0) [good] with moves := [.check] } : State).inQ = good :: []) ∧
      ((ready (crc8 0) [good]).moves = [] ∧ (ready (crc8 0) [good]).inQ = good :: []) ∧
      (({ State.reset with moves := [.append (msg [])] } : State).moves = .append (msg []) :: [] ∧
        decode (.pdu (msg [])) = .instr (.submit (msg []))) ∧
      ({ State.reset with moves := [.removeOk] } : State).moves = .removeOk :: [] ∧
      ({ State.reset with moves := [.removeFail] } : State).moves = .removeFail :: [] :=
  ⟨⟨rfl, rfl⟩, ⟨rfl, rfl⟩, ⟨rfl, rfl⟩, ⟨rfl, test_decode_submit⟩, rfl, rfl⟩

/-- A move with a meaning, one without, and no move. -/
theorem witness_EveryDefinedMoveAnswersANextState :
    (Move.reg 0x86 1).Defined ∧ ¬ (Move.reg 0x86 0).Defined ∧ Move.reset.Defined ∧
      ∀ m rest, State.reset.moves = m :: rest → m.Defined :=
  ⟨⟨_, rfl⟩, (by rintro ⟨_, h⟩; nomatch h), trivial, nofun⟩

/-- The three cases of a refusal, and a run that is refused. -/
theorem witness_RefusalInExactlyThreeCasesAndSticky :
    ((0x08#8).extractLsb' 3 4 ≠ 0) ∧ (0 : Word) ≠ 1 ∧
      Config.maxPduBytes < (msg (List.replicate (Config.maxPduBytes + 1) 0)).bytes.length ∧
      run 1 { State.reset with moves := [.reg 0x86 0] } = .refused .reservedCommand :=
  ⟨by decide, by decide, by simp [msg], rfl⟩

/-- One operation of each kind that answers `next`. -/
theorem witness_EveryOperationHasItsFrame :
    (∃ t, exec .rdPoly State.reset = .next t) ∧ (∃ t, exec (.wrPoly 7) State.reset = .next t) ∧
      (∃ t, exec (.wrStatus 7) broken = .next t) ∧ (∃ t, exec .construct State.reset = .next t) ∧
      ∃ t, exec (.submit good) (ready (crc32 0 0) [good]) = .next t :=
  ⟨⟨_, rfl⟩, ⟨_, rfl⟩, ⟨_, rfl⟩, ⟨_, rfl⟩, ⟨_, rfl⟩⟩

theorem witness_StepKeepsTheInvariant :
    (ready (crc8 0) [msg []]).Inv ∧ ∃ t, step (ready (crc8 0) [msg []]) = .next t :=
  ⟨⟨by decide, fun _ => by decide, by simp [ready, msg], by simp [ready, State.reset],
    by simp [ready, State.reset]⟩, _, rfl⟩

theorem witness_EveryRunFromPowerOnKeepsCauseAndStateTogether :
    ∃ t, run 1 (State.reset.withMoves [constructMove]) = .next t := ⟨_, rfl⟩

theorem witness_ConfigurationFrozenAlongRuns :
    broken.lifecycle ≠ .unconfigured ∧
      .reset ∉ (broken.withMoves [.reg 0x80 8, .reg 0x86 1]).moves ∧
      ∃ t, run 2 (broken.withMoves [.reg 0x80 8, .reg 0x86 1]) = .next t :=
  ⟨by decide, by decide, _, rfl⟩

theorem witness_ConfigErrorConsumesNothing :
    let s : State := { broken with inQ := [good], moves := [.check, .reg 0x86 1] }
    s.lifecycle = .configError ∧ .reset ∉ s.moves ∧ ∃ t, run 3 s = .next t :=
  ⟨rfl, by decide, _, rfl⟩

/-- A step of each agent that changes a channel. -/
theorem witness_ChannelsAreFifo :
    (∃ t, step { State.reset with moves := [.append (msg [])] } = .next t) ∧
      (∃ t, step (ready (crc8 0) [msg []]) = .next t) ∧
      ∃ t, step { State.reset with okQ := [good], moves := [.removeOk] } = .next t :=
  ⟨⟨{ State.reset with inQ := [msg []] }, by
    simp [step, runMove, offerPdu, decode, decodePdu, Message.wellFormed, msg, State.appendIn,
      State.withMoves, State.reset]⟩, ⟨_, rfl⟩, ⟨_, rfl⟩⟩

theorem witness_RegOperationAndCheckCommute : (ready (crc32 0 0) [good]).lifecycle = .ready := rfl

theorem witness_EveryScheduleRoutesTheSame :
    (ready (crc32 0 0) [good]).lifecycle = .ready ∧
      ∀ m ∈ [Move.reg 0x07 0, .append (msg []), .check, .reg 0x85 0],
        m.Defined ∧ m ≠ .reset ∧ m ≠ .removeOk ∧ m ≠ .removeFail := by
  refine ⟨rfl, ?_⟩
  simp only [List.mem_cons, List.not_mem_nil, or_false]
  rintro m (rfl | rfl | rfl | rfl)
  · exact ⟨⟨_, rfl⟩, by decide⟩
  · exact ⟨Nat.zero_le _, by decide⟩
  · exact ⟨trivial, by decide⟩
  · exact ⟨⟨_, rfl⟩, by decide⟩

/-- Both clauses: a configuration that passes validation, and the reset one, which does not. -/
theorem witness_WaitingPdusAreCheckedAfterConstruct :
    let s : State := { fresh (crc32 0 0) with inQ := [good], moves := [constructMove] }
    let t : State := { State.reset with inQ := [good], moves := [constructMove] }
    (s.lifecycle = .unconfigured ∧ s.moves = [constructMove] ∧ validate s.cfg = .none) ∧
      (t.lifecycle = .unconfigured ∧ t.moves = [constructMove] ∧ validate t.cfg ≠ .none) := by
  decide

theorem witness_ResetRechecksWaitingPdusUnderNewConfiguration :
    let s : State :=
      { broken with inQ := [good], moves := .reset :: (configWrites (crc32 0 0) ++ [constructMove]) }
    validate (crc32 0 0) = .none ∧
      s.moves = .reset :: (configWrites (crc32 0 0) ++ [constructMove]) := by decide

/-- A state that is stuck, one that is over, and one with its check enabled. -/
theorem witness_OverStuckOrEnabled :
    ({ broken with inQ := [good] } : State).moves = [] ∧
      ({ broken with inQ := [good] } : State).Stuck ∧
      (ready (crc8 0) []).moves = [] ∧ (ready (crc8 0) []).inQ = [] ∧
      (ready (crc8 0) [good]).moves = [] ∧ (ready (crc8 0) [good]).checkEnabled = true :=
  ⟨rfl, ⟨by simp, by decide⟩, rfl, rfl, rfl, rfl⟩

/-- The empty PDU and the longest one in IN. -/
theorem witness_CleanEntryRunsToItsEnd :
    let s := entryWith [msg [], msg (List.replicate Config.maxPduBytes 0)]
      (configWrites (crc8 0) ++ [constructMove])
    s.CleanEntry ∧ validate (crc8 0) = .none ∧
      s.moves = configWrites (crc8 0) ++ [constructMove] :=
  ⟨⟨rfl, by simp [entryWith, msg], rfl⟩, by decide, rfl⟩

/-- A refused first move leaves no clean entry, and neither does a message that is too long. -/
theorem test_cleanEntry_refuses :
    ¬ (entryWith [] [.reg 0x08 0]).CleanEntry ∧
      ¬ (entryWith [msg (List.replicate (Config.maxPduBytes + 1) 0)] []).CleanEntry :=
  ⟨fun h => absurd h.no_mark (by decide), fun h => by
    have := h.in_bound _ (List.mem_singleton.mpr rfl)
    simp [msg] at this⟩

end Sys2Proof.Tests
end

section
/-! PROOFS. The legal widths and flags of a construction (R6, R196, R197), and the byte strings of a
number (R14). -/

namespace Sys2Proof.Machine

/-! ### Construction -/

/-- The eight CRC widths of R24. -/
def legalWidths : List Word := [8#64, 16#64, 24#64, 32#64, 40#64, 48#64, 56#64, 64#64]

/-- The tests of Validate that concern the width accept exactly the eight widths (R24). -/
theorem mem_legalWidths_iff (v : Word) :
    v ∈ legalWidths ↔ v.toNat % 8 = 0 ∧ 8 ≤ v.toNat ∧ v.toNat ≤ 64 := by
  simp only [legalWidths, List.mem_cons, List.not_mem_nil, or_false, ← BitVec.toNat_inj,
    BitVec.toNat_ofNat]
  omega

/-- RSVD is 0 exactly when every bit of FLAGS from bit 4 up is 0 (R28). -/
theorem CfgRegs.flagsRsvd_eq_zero_iff (c : CfgRegs) :
    c.flagsRsvd = 0 ↔ ∀ i, 4 ≤ i → c.flags.getLsbD i = false := by
  constructor
  · intro h i hi
    by_cases hlt : i < 64
    · have hbit : c.flagsRsvd.getLsbD (i - 4) = false := by rw [h]; exact BitVec.getLsbD_zero
      have hidx : i - 4 < 60 := by omega
      simpa [flagsRsvd, BitVec.getLsbD_extractLsb', hidx, Nat.add_sub_cancel' hi] using hbit
    · exact BitVec.getLsbD_of_ge _ _ (by omega)
  · intro h
    apply BitVec.eq_of_getLsbD_eq
    intro i _
    simp [flagsRsvd, BitVec.getLsbD_extractLsb', h (4 + i) (by omega)]

/-- Validate finds no cause exactly when all of its tests pass (R197). -/
theorem validate_eq_none_iff (c : CfgRegs) :
    validate c = .none ↔
      (c.numBits.toNat % 8 = 0 ∧ 8 ≤ c.numBits.toNat ∧ c.numBits.toNat ≤ 64) ∧
        c.flagsRsvd = 0 := by
  unfold validate
  split_ifs with hmod hrange hrsvd
  · exact iff_of_false nofun (by omega)
  · exact iff_of_false nofun (by omega)
  · exact iff_of_false nofun fun h => hrsvd h.2
  · exact iff_of_true rfl ⟨by omega, not_not.mp hrsvd⟩

/-- A validation leads to READY exactly when it finds no cause (R196). -/
theorem Cause.outcome_eq_ready_iff (r : Cause) : r.outcome = .ready ↔ r = .none := by
  cases r <;> decide

theorem exec_construct_of_unconfigured {s : State} (h : s.lifecycle = .unconfigured) :
    exec .construct s = .next (s.setStatus (validate s.cfg).outcome (validate s.cfg)) := if_pos h

/-- In UNCONFIGURED, CONSTRUCT leads to READY exactly when Validate finds no cause (R196). -/
theorem exec_construct_ready_iff {s : State} (h : s.lifecycle = .unconfigured) :
    (∃ t, exec .construct s = .next t ∧ t.lifecycle = .ready) ↔ validate s.cfg = .none := by
  simp [exec_construct_of_unconfigured h, Cause.outcome_eq_ready_iff]

/-- Settles O14: CONSTRUCT succeeds when Validate finds no cause, which is a test of the width and a
test of RSVD. -/
theorem constructSucceedsForEightWidths : Obligations.ConstructSucceedsForEightWidths := by
  intro s hs
  rw [exec_construct_ready_iff hs, validate_eq_none_iff, ← mem_legalWidths_iff,
    CfgRegs.flagsRsvd_eq_zero_iff, legalWidths]

/-! ### Byte strings -/

@[simp] theorem beBytes_length (n v : Nat) : (beBytes n v).length = n := by
  simp [beBytes_eq_reverse]

/-- The bytes of a number, read back least significant first, give the number (R14). -/
theorem le_leBytes {n v : Nat} (h : v < 256 ^ n) : le (leBytes n v) = v := by
  induction n generalizing v with
  | zero =>
    obtain rfl : v = 0 := by simpa using h
    rfl
  | succ n ih =>
    have hq : v / 256 < 256 ^ n := Nat.div_lt_of_lt_mul (by rwa [pow_succ'] at h)
    rw [leBytes_succ, le, ih hq, BitVec.toNat_ofNat]
    omega

/-- A byte string is below 256 to its length (R14). -/
theorem le_lt_pow (t : List Byte) : le t < 256 ^ t.length := by
  induction t with
  | nil => simp [le]
  | cons b t ih =>
    have hb := b.isLt
    rw [le, List.length_cons, pow_succ]
    omega

/-- Writing the number that a byte string was read as gives the byte string (R14). -/
theorem leBytes_le (t : List Byte) : leBytes t.length (le t) = t := by
  induction t with
  | nil => rfl
  | cons b t ih =>
    have hb := b.isLt
    have hfirst : BitVec.ofNat 8 (le (b :: t)) = b := by
      apply BitVec.eq_of_toNat_eq
      rw [BitVec.toNat_ofNat, le]
      omega
    have hrest : le (b :: t) / 256 = le t := by rw [le]; omega
    rw [List.length_cons, leBytes_succ, hfirst, hrest, ih]

/-! Each fact about the other byte order is the one above about the reversed string. -/

theorem be_beBytes {n v : Nat} (h : v < 256 ^ n) : be (beBytes n v) = v := by
  rw [be_eq_le_reverse, beBytes_eq_reverse, List.reverse_reverse, le_leBytes h]

theorem be_lt_pow (t : List Byte) : be t < 256 ^ t.length := by
  simpa [be_eq_le_reverse] using le_lt_pow t.reverse

theorem beBytes_be (t : List Byte) : beBytes t.length (be t) = t := by
  have h := leBytes_le t.reverse
  rw [List.length_reverse] at h
  rw [be_eq_le_reverse, beBytes_eq_reverse, h, List.reverse_reverse]

/-- Settles O31: by induction on the length for least significant first, and by reversal for most
significant first. -/
theorem trailerBytesReadBack : Obligations.TrailerBytesReadBack :=
  ⟨fun n v h => ⟨leBytes_length n v, beBytes_length n v, le_leBytes h, be_beBytes h⟩,
    fun t => ⟨le_lt_pow t, be_lt_pow t, leBytes_le t, beBytes_be t⟩⟩

end Sys2Proof.Machine
end

section
/-! PROOFS. The state: what a write and a read do to it, the frame of every operation, who changes
the channels, and what every step and every run keep. -/

namespace Sys2Proof.Machine

/-! ### Power-on and STATUS -/

/-- The power-on state is the clean entry with nothing in IN and no move pending (R242, R255). -/
theorem State.reset_cleanEntry : State.reset.CleanEntry := ⟨rfl, nofun, rfl⟩

/-- Settles O1: every field of State.reset is written out, and STATUS is the word of codes 0 and 0. -/
theorem powerOnStateIsResetWithEmptyChannels :
    Obligations.PowerOnStateIsResetWithEmptyChannels :=
  ⟨rfl, rfl, rfl, rfl, rfl, rfl, by decide⟩

/-- Settles O47: power-on is a clean entry, and every clean entry meets the invariant. -/
theorem invariantHoldsAtReset : Obligations.InvariantHoldsAtReset := State.reset_cleanEntry.inv

/-- The fields of the STATUS word: STATE, two zero bits, CAUSE, and zero bits above (R31). -/
theorem statusWord_fields (l : Lifecycle) (c : Cause) :
    ((statusWord l c).extractLsb' 0 2).toNat = l.code ∧
    (statusWord l c).extractLsb' 2 2 = 0 ∧
    ((statusWord l c).extractLsb' 4 4).toNat = c.code ∧
    (statusWord l c).extractLsb' 8 56 = 0 := by
  cases l <;> cases c <;> decide

/-- Settles O6: the fields are those of the STATUS word, and WR_STATUS discards its DATA. -/
theorem statusWordFields : Obligations.StatusWordFields := by
  intro s
  obtain ⟨hstate, hlow, hcause, hhigh⟩ := statusWord_fields s.lifecycle s.cause
  exact ⟨hstate, hlow, hcause, hhigh, fun _ => rfl⟩

/-! ### Registers by their index -/

/-- IDX of a configuration register (R22). -/
def CfgReg.idx : CfgReg → BitVec 3
  | .numBits => 0
  | .poly => 1
  | .init => 2
  | .xorout => 3
  | .flags => 4
  | .skip => 5

theorem CfgReg.idx_injective {q r : CfgReg} (h : q.idx = r.idx) : q = r := by
  revert h; cases q <;> cases r <;> decide

/-- Every IDX names a configuration register, or CMD, or STATUS (R22). -/
theorem idx_cases (j : BitVec 3) : (∃ r : CfgReg, r.idx = j) ∨ j = 6 ∨ j = 7 := by
  have hall : ∀ j : BitVec 3,
      j ∈ [CfgReg.numBits, .poly, .init, .xorout, .flags, .skip].map CfgReg.idx ∨
        j = 6 ∨ j = 7 := by decide
  refine (hall j).imp_left fun hj => ?_
  obtain ⟨r, _, hr⟩ := List.mem_map.mp hj
  exact ⟨r, hr⟩

/-- The indices below 6 are those of the configuration registers (R22). -/
theorem exists_cfgReg_of_lt {i : BitVec 3} (h : i.toNat < 6) : ∃ r : CfgReg, r.idx = i := by
  rcases idx_cases i with hr | rfl | rfl
  · exact hr
  · exact absurd h (by decide)
  · exact absurd h (by decide)

/-- The DATA word that a read of register IDX returns (R181 to R188). -/
def State.readData (s : State) (idx : BitVec 3) : Word :=
  match idx.toNat with
  | 0 => s.cfg.numBits
  | 1 => s.cfg.poly
  | 2 => s.cfg.init
  | 3 => s.cfg.xorout
  | 4 => s.cfg.flags
  | 5 => s.cfg.skip
  | 6 => 0
  | _ => s.status

theorem State.readData_idx (s : State) (r : CfgReg) : s.readData r.idx = s.cfg.get r := by
  cases r <;> rfl

/-- A read answers with the DATA word of its register (R181 to R188). -/
theorem exec_readOf_eq (s : State) (idx : BitVec 3) :
    exec (readOf idx) s = .next (s.respond (s.readData idx)) := by
  rcases idx_cases idx with ⟨r, rfl⟩ | rfl | rfl
  · cases r <;> rfl
  · rfl
  · rfl

/-- A write frame of a configuration register decodes to an operation that does CfgWrite (R189). -/
theorem exec_writeOf_idx (r : CfgReg) (v : Word) :
    ∃ i, writeOf r.idx v = .instr i ∧ ∀ s, exec i s = .next (s.cfgWrite r v) := by
  cases r <;> exact ⟨_, rfl, fun _ => rfl⟩

/-- In UNCONFIGURED, after a write the written register reads as the written word and every other
one as before (R189). -/
theorem State.readData_cfgWrite {s : State} (h : s.lifecycle = .unconfigured) (r : CfgReg)
    (v : Word) (j : BitVec 3) :
    (s.cfgWrite r v).readData j = if r.idx = j then v else s.readData j := by
  rw [cfgWrite_of_unconfigured s r v h]
  rcases idx_cases j with ⟨q, rfl⟩ | rfl | rfl
  · rw [readData_idx, readData_idx]
    by_cases hq : r.idx = q.idx
    · rw [if_pos hq, ← CfgReg.idx_injective hq]
      exact CfgRegs.get_set_same s.cfg v r
    · rw [if_neg hq]
      exact CfgRegs.get_set_other s.cfg v fun e => hq (congrArg CfgReg.idx e.symm)
  · rw [if_neg (by cases r <;> decide)]; rfl
  · rw [if_neg (by cases r <;> decide)]; rfl

/-- The step of a read frame. -/
theorem step_read {s : State} {j : BitVec 3} {d : Word} {rest : List Move}
    (h : s.moves = .reg (headerOf false j) d :: rest) :
    step s = .next ((s.withMoves rest).respond (s.readData j)) := by
  rw [step_move h]
  exact (issueReg_instr (decode_read j d) _).trans (exec_readOf_eq _ j)

/-- A configuration write and the choice of the schedule touch different fields. -/
theorem State.cfgWrite_withMoves (s : State) (ms : List Move) (r : CfgReg) (v : Word) :
    (s.withMoves ms).cfgWrite r v = (s.cfgWrite r v).withMoves ms := by
  unfold cfgWrite
  rw [withMoves_lifecycle]
  split <;> rfl

/-- The step of a write frame of a configuration register. -/
theorem step_write {s : State} {r : CfgReg} {v : Word} {rest : List Move}
    (h : s.moves = .reg (headerOf true r.idx) v :: rest) :
    step s = .next ((s.withMoves rest).cfgWrite r v) := by
  obtain ⟨i, hi, he⟩ := exec_writeOf_idx r v
  rw [step_move h]
  exact (issueReg_instr ((decode_write r.idx v).trans hi) _).trans (he _)

/-- Settles O10: the write frame is the CfgWrite of register i, and the read of register j after it
returns the written word when i = j and the earlier one otherwise. -/
theorem writeThenReadBack : Obligations.WriteThenReadBack := by
  intro s i j v hs hi
  obtain ⟨r, rfl⟩ := exists_cfgReg_of_lt hi
  have hread (u : State) : run 1 (u.withMoves [.reg (headerOf false j) 0]) =
      .next ((u.withMoves []).respond (u.readData j)) := run_succ_next 0 (step_read rfl)
  have hwrite : run 2 (s.withMoves [.reg (headerOf true r.idx) v, .reg (headerOf false j) 0]) =
      run 1 ((s.cfgWrite r v).withMoves [.reg (headerOf false j) 0]) :=
    run_succ_next 1 ((step_write rfl).trans (congrArg _ (s.cfgWrite_withMoves _ r v)))
  refine ⟨_, _, s.readData j, (s.cfgWrite r v).readData j, hread s, rfl, hwrite.trans (hread _),
    ?_, State.readData_cfgWrite hs r v j⟩
  simp

/-! ### A message shorter than SKIP + TL -/

/-- The length test comes first (R152). -/
theorem checkPdu_of_short {c : CfgRegs} {m : Message}
    (h : m.bytes.length < c.skipLen + c.trailerLen) : checkPdu c m = .rejected m :=
  if_pos (decide_eq_true h)

/-- In READY, a rejected head of IN goes to FAIL as it is (R159). -/
theorem exec_submit_rejected {s : State} {m : Message} {q : List Message}
    (hl : s.lifecycle = .ready) (hq : s.inQ = m :: q) (hc : checkPdu s.cfg m = .rejected m) :
    exec (.submit m) s = .next { s with inQ := q, failQ := s.failQ ++ [m] } := by
  have he : exec (.submit m) s = .next (s.takeIn.route (checkPdu s.cfg m)) :=
    execSubmit_enabled hl hq
  rw [he, hc, State.route_rejected, State.emitFail, State.takeIn, hq, List.tail_cons]

/-- Settles O28: a message of at most P bytes is shorter than SKIP + TL, and Validate has no test of
SKIP. -/
theorem oversizedSkipRejectsEveryPdu : Obligations.OversizedSkipRejectsEveryPdu := by
  refine ⟨fun P s m rest hl hq hP hskip => ?_, fun _ _ => rfl⟩
  exact exec_submit_rejected hl hq (checkPdu_of_short (hP.trans_lt hskip))

/-! ### The frame of every operation -/

theorem CfgRegs.set_get (c : CfgRegs) (r : CfgReg) : c.set r (c.get r) = c := by
  cases r <;> rfl

/-- A configuration write changes no field but the registers, and no register but its own (R189). -/
theorem cfgWrite_frame {s t : State} {r : CfgReg} {v : Word}
    (h : (.next (s.cfgWrite r v) : Host.Outcome State Fault Refusal) = .next t) :
    t = { s with cfg := t.cfg } ∧ t.cfg = s.cfg.set r (t.cfg.get r) := by
  cases h
  by_cases hl : s.lifecycle = .unconfigured
  · rw [State.cfgWrite_of_unconfigured s r v hl]
    exact ⟨rfl, by rw [CfgRegs.get_set_same]⟩
  · rw [State.cfgWrite_of_configured s r v hl]
    exact ⟨rfl, (s.cfg.set_get r).symm⟩

/-- Taking the head of IN and routing it changes no field but the channels (R158). -/
theorem State.takeIn_route_frame (s : State) (v : Verdict) :
    s.takeIn.route v = { s with
      inQ := (s.takeIn.route v).inQ
      okQ := (s.takeIn.route v).okQ
      failQ := (s.takeIn.route v).failQ } := by
  cases v <;> rfl

/-- SUBMIT changes no field but the channels (R150). -/
theorem execSubmit_frame {s t : State} {m : Message} (h : execSubmit m s = .next t) :
    t = { s with inQ := t.inQ, okQ := t.okQ, failQ := t.failQ } := by
  rcases execSubmit_cases m s with ⟨_, e⟩ | ⟨_, head, _, _, _, e⟩ <;> rw [e] at h <;> cases h
  · rfl
  · exact s.takeIn_route_frame _

/-- CONSTRUCT changes no field but STATE and CAUSE (R196). -/
theorem execConstruct_frame {s t : State} (h : execConstruct s = .next t) :
    t = { s with lifecycle := t.lifecycle, cause := t.cause } := by
  unfold execConstruct at h
  split at h <;> cases h <;> rfl

/-- Settles O46: one case per operation, each by the frame of what it runs. -/
theorem everyOperationHasItsFrame : Obligations.EveryOperationHasItsFrame := by
  intro i s t h
  cases i with
  | rdNumBits | rdPoly | rdInit | rdXorout | rdFlags | rdSkip | rdCmd | rdStatus =>
    cases h
    exact ⟨rfl, .inl ⟨⟨_, rfl⟩, by decide⟩⟩
  | wrNumBits v | wrPoly v | wrInit v | wrXorout v | wrFlags v | wrSkip v =>
    obtain ⟨hf, hreg⟩ := cfgWrite_frame h
    refine ⟨by rw [hf], .inr (.inl ⟨hf, v, ?_⟩)⟩
    simpa [CfgRegs.set, CfgRegs.get] using hreg
  | wrStatus v =>
    cases h
    exact ⟨rfl, .inr (.inl ⟨rfl, v, by simp⟩)⟩
  | construct =>
    have hf := execConstruct_frame h
    exact ⟨by rw [hf], .inr (.inr (.inl ⟨hf, rfl⟩))⟩
  | submit m =>
    have hf := execSubmit_frame h
    exact ⟨by rw [hf], .inr (.inr (.inr ⟨hf, m, rfl⟩))⟩

/-! ### The move that a step runs -/

/-- The move that the next step runs: the first of the schedule, or the block's check when no move
is pending (log entries 4, 5). -/
def State.nextMove (s : State) : Move := s.moves.headD .check

/-- What a step does is what its move does, with the schedule shortened by that move. -/
theorem step_moveEffect {s t : State} (h : step s = .next t) :
    MoveEffect (s.withMoves s.moves.tail) s.nextMove t := by
  rcases step_effect h with ⟨hm, he⟩ | ⟨m, rest, hm, he⟩
  · have hs : s.withMoves s.moves.tail = s := by rw [hm, List.tail_nil, ← hm]; rfl
    rw [hs, State.nextMove, hm]
    exact he
  · rw [State.nextMove, hm]
    exact he

theorem State.moves_of_nextMove {s : State} {m : Move} (h : s.nextMove = m) (hm : m ≠ .check) :
    ∃ rest, s.moves = m :: rest := by
  unfold nextMove at h
  cases hs : s.moves with
  | nil => rw [hs] at h; exact absurd h.symm hm
  | cons a rest => rw [hs] at h; exact ⟨rest, congrArg (· :: rest) h⟩

theorem State.moves_of_nextMove_check {s : State} (h : s.nextMove = .check) :
    s.moves = [] ∨ ∃ rest, s.moves = .check :: rest := by
  unfold nextMove at h
  cases hs : s.moves with
  | nil => exact .inl rfl
  | cons a rest => rw [hs] at h; exact .inr ⟨rest, congrArg (· :: rest) h⟩

/-! ### Who changes the channels -/

/-- What one move does to IN (R37, R150). -/
theorem MoveEffect.inQ_cases {u t : State} {m : Move} (h : MoveEffect u m t) :
    t.inQ = u.inQ ∨ (∃ msg, m = .append msg ∧ t.inQ = u.inQ ++ [msg]) ∨
      ((u.lifecycle = .ready ∧ m = .check) ∧ ∃ msg, u.inQ = msg :: t.inQ) := by
  cases h with
  | wrote _ _ r v => exact .inl (u.cfgWrite_inQ r v)
  | appended msg _ => exact .inr (.inl ⟨msg, rfl, rfl⟩)
  | routed msg q hl hq => exact .inr (.inr ⟨⟨hl, rfl⟩, msg, by simp [hq]⟩)
  | answered | constructed | ignored | waited | removedOk | removedFail | wasReset => exact .inl rfl

/-- What one move does to OK (R158, R252). -/
theorem MoveEffect.okQ_cases {u t : State} {m : Move} (h : MoveEffect u m t) :
    t.okQ = u.okQ ∨
      ((u.lifecycle = .ready ∧ m = .check) ∧ ∃ msg fwd, u.inQ = msg :: t.inQ ∧
        checkPdu u.cfg msg = .accepted fwd ∧ t.okQ = u.okQ ++ [fwd]) ∨
      (m = .removeOk ∧ t.okQ = u.okQ.tail) := by
  cases h with
  | wrote _ _ r v => exact .inl (u.cfgWrite_okQ r v)
  | routed msg q hl hq =>
    cases hv : checkPdu u.cfg msg with
    | accepted fwd => exact .inr (.inl ⟨⟨hl, rfl⟩, msg, fwd, by simp [hq], hv, rfl⟩)
    | rejected orig => exact .inl rfl
  | removedOk => exact .inr (.inr ⟨rfl, rfl⟩)
  | answered | constructed | ignored | appended | waited | removedFail | wasReset => exact .inl rfl

/-- A check rejects a message with the message itself (R159). -/
theorem checkPdu_rejected_eq {c : CfgRegs} {m orig : Message} (h : checkPdu c m = .rejected orig) :
    orig = m := by
  have hm : checkPdu c m = .rejected m :=
    checkPdu_rejects_iff.mpr fun ⟨f, hf⟩ => by rw [hf] at h; cases h
  rw [hm] at h
  cases h
  rfl

/-- What one move does to FAIL (R158, R252). -/
theorem MoveEffect.failQ_cases {u t : State} {m : Move} (h : MoveEffect u m t) :
    t.failQ = u.failQ ∨
      ((u.lifecycle = .ready ∧ m = .check) ∧ ∃ msg, u.inQ = msg :: t.inQ ∧
        checkPdu u.cfg msg = .rejected msg ∧ t.failQ = u.failQ ++ [msg]) ∨
      (m = .removeFail ∧ t.failQ = u.failQ.tail) := by
  cases h with
  | wrote _ _ r v => exact .inl (u.cfgWrite_failQ r v)
  | routed msg q hl hq =>
    cases hv : checkPdu u.cfg msg with
    | accepted fwd => exact .inl rfl
    | rejected orig =>
      obtain rfl := checkPdu_rejected_eq hv
      exact .inr (.inl ⟨⟨hl, rfl⟩, orig, by simp [hq], hv, rfl⟩)
  | removedFail => exact .inr (.inr ⟨rfl, rfl⟩)
  | answered | constructed | ignored | appended | waited | removedOk | wasReset => exact .inl rfl

/-- Settles O52: by what the step's move does to each channel. -/
theorem channelsAreFifo : Obligations.ChannelsAreFifo := by
  intro s t h
  have he := step_moveEffect h
  have checks {p : Prop} (hc : (s.lifecycle = .ready ∧ s.nextMove = .check) ∧ p) :
      (s.lifecycle = .ready ∧ (s.moves = [] ∨ ∃ rest, s.moves = .check :: rest)) ∧ p :=
    hc.imp_left (And.imp_right State.moves_of_nextMove_check)
  refine ⟨he.inQ_cases.imp_right (Or.imp ?_ checks),
    he.okQ_cases.imp_right (Or.imp checks (And.imp_left ?_)),
    he.failQ_cases.imp_right (Or.imp checks (And.imp_left ?_))⟩
  · rintro ⟨msg, hm, hin⟩
    obtain ⟨rest, hr⟩ := State.moves_of_nextMove hm nofun
    exact ⟨msg, rest, hr, hin⟩
  · exact fun hm => State.moves_of_nextMove hm nofun
  · exact fun hm => State.moves_of_nextMove hm nofun

/-! ### What every step keeps -/

/-- Validation leads to CONFIG_ERROR exactly when it finds a cause (R196). -/
theorem Cause.outcome_eq_configError_iff (r : Cause) : r ≠ .none ↔ r.outcome = .configError := by
  cases r <;> decide

/-- No message that a check forwards is longer than the message checked (R157). -/
theorem checkPdu_accepted_length {c : CfgRegs} {m fwd : Message}
    (h : checkPdu c m = .accepted fwd) : fwd.bytes.length ≤ m.bytes.length := by
  rw [checkPdu_forwards h]
  unfold CfgRegs.forwarded
  split
  · simp [slice_eq]
  · exact le_rfl

/-- The invariant does not speak of the schedule. -/
theorem State.Inv.withMoves {s : State} (h : s.Inv) (ms : List Move) : (s.withMoves ms).Inv :=
  ⟨h.cause_iff, h.ready_valid, h.in_bound, h.ok_bound, h.fail_bound⟩

/-- A configuration write keeps the invariant: it stores only in UNCONFIGURED (R189). -/
theorem State.Inv.cfgWrite {s : State} (h : s.Inv) (r : CfgReg) (v : Word) :
    (s.cfgWrite r v).Inv := by
  by_cases hl : s.lifecycle = .unconfigured
  · rw [cfgWrite_of_unconfigured s r v hl]
    exact ⟨h.cause_iff, fun hr => (nomatch hl.symm.trans hr), h.in_bound, h.ok_bound, h.fail_bound⟩
  · rwa [cfgWrite_of_configured s r v hl]

/-- A construction keeps the invariant: STATE and CAUSE are those of one validation (R196). -/
theorem State.Inv.construct {s : State} (h : s.Inv) :
    (s.setStatus (validate s.cfg).outcome (validate s.cfg)).Inv :=
  ⟨Cause.outcome_eq_configError_iff _, (Cause.outcome_eq_ready_iff _).mp,
    h.in_bound, h.ok_bound, h.fail_bound⟩

/-- A check keeps the invariant: the message it takes is legal, and it forwards no longer one. -/
theorem State.Inv.route {s : State} (h : s.Inv) {m : Message} {q : List Message}
    (hq : s.inQ = m :: q) : (s.takeIn.route (checkPdu s.cfg m)).Inv := by
  have hm : m.bytes.length ≤ Config.maxPduBytes := h.in_bound m (by simp [hq])
  have hin : ∀ n ∈ s.inQ.tail, n.bytes.length ≤ Config.maxPduBytes :=
    fun n hn => h.in_bound n (List.mem_of_mem_tail hn)
  cases hv : checkPdu s.cfg m with
  | accepted fwd =>
    have hfwd := (checkPdu_accepted_length hv).trans hm
    exact ⟨h.cause_iff, h.ready_valid, hin,
      List.forall_mem_append.mpr ⟨h.ok_bound, List.forall_mem_singleton.mpr hfwd⟩, h.fail_bound⟩
  | rejected orig =>
    obtain rfl := checkPdu_rejected_eq hv
    exact ⟨h.cause_iff, h.ready_valid, hin, h.ok_bound,
      List.forall_mem_append.mpr ⟨h.fail_bound, List.forall_mem_singleton.mpr hm⟩⟩

/-- Every move keeps the invariant. -/
theorem MoveEffect.inv {u t : State} {m : Move} (he : MoveEffect u m t) (h : u.Inv) : t.Inv := by
  cases he with
  | wrote _ _ r v => exact h.cfgWrite r v
  | constructed => exact h.construct
  | ignored | waited => exact h
  | routed msg q _ hq => exact h.route hq
  | answered => exact ⟨h.cause_iff, h.ready_valid, h.in_bound, h.ok_bound, h.fail_bound⟩
  | appended msg hmsg =>
    exact ⟨h.cause_iff, h.ready_valid,
      List.forall_mem_append.mpr ⟨h.in_bound, List.forall_mem_singleton.mpr hmsg⟩,
      h.ok_bound, h.fail_bound⟩
  | removedOk =>
    exact ⟨h.cause_iff, h.ready_valid, h.in_bound,
      fun n hn => h.ok_bound n (List.mem_of_mem_tail hn), h.fail_bound⟩
  | removedFail =>
    exact ⟨h.cause_iff, h.ready_valid, h.in_bound, h.ok_bound,
      fun n hn => h.fail_bound n (List.mem_of_mem_tail hn)⟩
  | wasReset => exact ⟨by simp, nofun, h.in_bound, h.ok_bound, h.fail_bound⟩

/-- Settles O48: a step is one move, and every move keeps the invariant. -/
theorem stepKeepsTheInvariant : Obligations.StepKeepsTheInvariant :=
  fun _ _ hs h => (step_moveEffect h).inv (hs.withMoves _)

/-- Settles O49: the invariant holds at power-on under every schedule, and every step keeps it. -/
theorem everyRunFromPowerOnKeepsCauseAndStateTogether :
    Obligations.EveryRunFromPowerOnKeepsCauseAndStateTogether := by
  intro ms k t h
  have ht : t.Inv :=
    run_induction stepKeepsTheInvariant k _ t (State.reset_cleanEntry.inv.withMoves ms) h
  exact ⟨ht.cause_iff, ht.ready_valid⟩

/-! ### The frozen configuration -/

/-- The configuration and STATUS of two states agree (R34, R35). -/
def SameCfgStatus (s t : State) : Prop :=
  t.cfg = s.cfg ∧ t.lifecycle = s.lifecycle ∧ t.cause = s.cause

/-- Once UNCONFIGURED is left, no move but RESET changes the configuration or STATUS (R34, R35). -/
theorem MoveEffect.sameCfgStatus {u t : State} {m : Move} (he : MoveEffect u m t)
    (hl : u.lifecycle ≠ .unconfigured) (hm : m ≠ .reset) : SameCfgStatus u t := by
  cases he with
  | wrote _ _ r v =>
    rw [State.cfgWrite_of_configured u r v hl]
    exact ⟨rfl, rfl, rfl⟩
  | constructed _ _ hu => exact absurd hu hl
  | routed => exact ⟨by simp, by simp, by simp⟩
  | wasReset => exact absurd rfl hm
  | answered | ignored | appended | waited | removedOk | removedFail => exact ⟨rfl, rfl, rfl⟩

/-- No move changes the schedule of the moves after it. -/
theorem MoveEffect.moves_eq {u t : State} {m : Move} (he : MoveEffect u m t) :
    t.moves = u.moves := by
  cases he with
  | wrote _ _ r v => exact u.cfgWrite_moves r v
  | routed => simp
  | answered | constructed | ignored | appended | waited | removedOk | removedFail | wasReset => rfl

theorem step_moves {s t : State} (h : step s = .next t) : t.moves = s.moves.tail :=
  (step_moveEffect h).moves_eq

/-- One step of a block that has left UNCONFIGURED, with no RESET as its move (R34, R35). -/
theorem step_sameCfgStatus {s t : State} (h : step s = .next t)
    (hl : s.lifecycle ≠ .unconfigured) (hm : s.nextMove ≠ .reset) : SameCfgStatus s t :=
  (step_moveEffect h).sameCfgStatus hl hm

/-- A constructed block `s` in the middle of a run without RESET, at the state `u`. -/
structure Frozen (s u : State) : Prop where
  same : SameCfgStatus s u
  no_reset : .reset ∉ u.moves

/-- Every step keeps a constructed block frozen. -/
theorem Frozen.step {s u t : State} (hl : s.lifecycle ≠ .unconfigured) (hf : Frozen s u)
    (h : step u = .next t) : Frozen s t := by
  obtain ⟨⟨hcfg, hlife, hcause⟩, hno⟩ := hf
  have hm : u.nextMove ≠ .reset := fun e => by
    obtain ⟨rest, hr⟩ := State.moves_of_nextMove e nofun
    exact hno (by simp [hr])
  obtain ⟨hcfg', hlife', hcause'⟩ := step_sameCfgStatus h (hlife ▸ hl) hm
  refine ⟨⟨hcfg'.trans hcfg, hlife'.trans hlife, hcause'.trans hcause⟩, fun hr => hno ?_⟩
  exact List.mem_of_mem_tail (step_moves h ▸ hr)

/-- Settles O50: every step keeps a constructed block frozen, so every run does. -/
theorem configurationFrozenAlongRuns : Obligations.ConfigurationFrozenAlongRuns := by
  intro k s t hl hno h
  exact (run_induction (P := Frozen s) (fun _ _ => Frozen.step hl) k s t
    ⟨⟨rfl, rfl, rfl⟩, hno⟩ h).same

end Sys2Proof.Machine
end

section
/-! PROOFS. The order of the agents' moves: a REG-port operation and a check commute in READY (R75),
and every schedule that takes no message away routes the same messages (R74, R161). -/

namespace Sys2Proof.Machine

/-! ### Reading twice -/

/-- Each of the eight reads is the read of some register index (R97). -/
theorem exists_readOf_of_mem {i : Instr}
    (h : i ∈ [Instr.rdNumBits, .rdPoly, .rdInit, .rdXorout, .rdFlags, .rdSkip, .rdCmd, .rdStatus]) :
    ∃ j, i = readOf j := by
  have hmap : [Instr.rdNumBits, .rdPoly, .rdInit, .rdXorout, .rdFlags, .rdSkip, .rdCmd, .rdStatus] =
      [0, 1, 2, 3, 4, 5, 6, 7].map readOf := by decide
  rw [hmap] at h
  obtain ⟨j, _, hj⟩ := List.mem_map.mp h
  exact ⟨j, hj.symm⟩

/-- A response to the host is not part of what a read returns (R70). -/
@[simp] theorem State.readData_respond (s : State) (v : Word) (j : BitVec 3) :
    (s.respond v).readData j = s.readData j := rfl

/-- Settles O7: a read answers with the DATA of its register, which the response leaves as it was. -/
theorem readsChangeNoBlockState : Obligations.ReadsChangeNoBlockState := by
  intro i s hi
  obtain ⟨j, rfl⟩ := exists_readOf_of_mem hi
  refine ⟨s.readData j, _, _, exec_readOf_eq s j, exec_readOf_eq _ j, rfl, ?_⟩
  rw [State.readData_respond]
  simp [State.respond]

/-! ### A REG-port operation in READY -/

/-- Once UNCONFIGURED is left, no write changes anything (R189, R196, R198). -/
theorem exec_writeOf_configured {j : BitVec 3} {d : Word} {i : Instr} (hi : writeOf j d = .instr i)
    {s : State} (hl : s.lifecycle ≠ .unconfigured) : exec i s = .next s := by
  rcases idx_cases j with ⟨r, rfl⟩ | rfl | rfl
  · obtain ⟨w, hw, he⟩ := exec_writeOf_idx r d
    cases hi.symm.trans hw
    rw [he, State.cfgWrite_of_configured _ _ _ hl]
  · change (if d = 1 then Decoded.instr .construct else .reject .reservedCommand) = .instr i at hi
    split at hi <;> cases hi
    exact if_neg hl
  · cases hi
    rfl

/-- What a REG-port operation does to a constructed block: a read responds, a write does nothing. -/
def State.answerReg (s : State) (h : Header) : State :=
  if h.rw then s else s.respond (s.readData h.idx)

@[simp] theorem State.answerReg_lifecycle (s : State) (h : Header) :
    (s.answerReg h).lifecycle = s.lifecycle := by
  unfold answerReg
  split <;> rfl

theorem State.answerReg_withMoves (s : State) (h : Header) (ms : List Move) :
    (s.withMoves ms).answerReg h = (s.answerReg h).withMoves ms := by
  unfold answerReg
  split <;> rfl

theorem issueReg_configured {h : Header} {d : Word} {i : Instr} (hi : decodeReg h d = .instr i)
    {s : State} (hl : s.lifecycle ≠ .unconfigured) : issueReg h d s = .next (s.answerReg h) := by
  rw [issueReg_instr hi]
  rcases decodeReg_cases h d with ⟨_, e⟩ | ⟨hh, e⟩ | ⟨hh, e⟩
  · nomatch e.symm.trans hi
  · cases e.symm.trans hi
    rw [State.answerReg, hh, rw_headerOf, idx_headerOf]
    exact exec_readOf_eq s _
  · rw [State.answerReg, hh, rw_headerOf]
    exact exec_writeOf_configured (e.symm.trans hi) hl

/-! ### The check in READY -/

theorem acceptedOf_append (c : CfgRegs) (ms ns : List Message) :
    acceptedOf c (ms ++ ns) = acceptedOf c ms ++ acceptedOf c ns := List.filterMap_append

theorem rejectedOf_append (c : CfgRegs) (ms ns : List Message) :
    rejectedOf c (ms ++ ns) = rejectedOf c ms ++ rejectedOf c ns := List.filterMap_append

/-- What the check step does in READY, IN empty or not: the head of IN, if there is one, goes to the
channel of its verdict (R150, R158). -/
def State.checked (s : State) : State :=
  { s with
    inQ := s.inQ.tail
    okQ := s.okQ ++ acceptedOf s.cfg (s.inQ.take 1)
    failQ := s.failQ ++ rejectedOf s.cfg (s.inQ.take 1) }

theorem State.checked_of_empty {s : State} (hq : s.inQ = []) : s.checked = s := by
  obtain ⟨cfg, lifecycle, cause, inQ, okQ, failQ, responses, moves⟩ := s
  cases hq
  simp [checked, acceptedOf, rejectedOf]

theorem State.takeIn_route_eq_checked {s : State} {m : Message} {q : List Message}
    (hq : s.inQ = m :: q) : s.takeIn.route (checkPdu s.cfg m) = s.checked := by
  cases hv : checkPdu s.cfg m <;>
    simp [checked, hq, hv, acceptedOf, rejectedOf, takeIn, emitOk, emitFail]

theorem checkHead_ready {s : State} (hl : s.lifecycle = .ready) : checkHead s = .next s.checked := by
  rcases checkHead_cases s with ⟨hw, e⟩ | ⟨_, m, q, hq, e⟩
  · rw [e, State.checked_of_empty (hw.resolve_left (not_not.mpr hl))]
  · rw [e, State.takeIn_route_eq_checked hq]

theorem step_withMoves (s : State) (m : Move) (rest : List Move) :
    step (s.withMoves (m :: rest)) = runMove m (s.withMoves rest) := step_move rfl

theorem step_check_ready {s : State} (hl : s.lifecycle = .ready) (rest : List Move) :
    step (s.withMoves (.check :: rest)) = .next (s.checked.withMoves rest) :=
  (step_withMoves s .check rest).trans (checkHead_ready hl)

theorem step_reg_configured {h : Header} {d : Word} {i : Instr} (hi : decodeReg h d = .instr i)
    {s : State} (hl : s.lifecycle ≠ .unconfigured) (rest : List Move) :
    step (s.withMoves (.reg h d :: rest)) = .next ((s.answerReg h).withMoves rest) := by
  rw [← State.answerReg_withMoves]
  exact (step_withMoves s (.reg h d) rest).trans (issueReg_configured hi hl)

theorem step_reg_reject {h : Header} {d : Word} {r : Reject} (hr : decodeReg h d = .reject r)
    (s : State) (rest : List Move) :
    step (s.withMoves (.reg h d :: rest)) = .refused (Refusal.ofReject r) :=
  (step_withMoves s (.reg h d) rest).trans (issueReg_reject hr _)

/-- The answer of a REG-port operation and the verdict of a check do not depend on each other: the
first is about the registers and the responses, the second about the channels (R34, R75). -/
theorem State.answerReg_checked (s : State) (h : Header) :
    s.checked.answerReg h = (s.answerReg h).checked := by
  unfold answerReg
  split <;> rfl

/-- Settles O53: both orders are refused with the decoder's reason, or both give the answer of the
operation and the verdict of the check. -/
theorem regOperationAndCheckCommute : Obligations.RegOperationAndCheckCommute := by
  intro s h d rest hl
  have hl' : s.lifecycle ≠ .unconfigured := by simp [hl]
  rw [run_succ_next 1 (step_check_ready hl _)]
  cases hd : decodeReg h d with
  | reject r =>
    rw [run_succ_refused 1 (step_reg_reject hd s _),
      run_succ_refused 0 (step_reg_reject hd s.checked _)]
  | instr i =>
    have hready : (s.answerReg h).lifecycle = .ready := by rw [State.answerReg_lifecycle, hl]
    rw [run_succ_next 1 (step_reg_configured hd hl' _),
      run_succ_next 0 (step_check_ready hready _),
      run_succ_next 0 (step_reg_configured hd (s := s.checked) hl' _), State.answerReg_checked]

/-! ### Messages on their way from IN to OK and FAIL -/

/-- `t` is `s` later, with the messages `ms` checked in between: the configuration and STATE are the
same, and OK and FAIL have grown by the verdicts. -/
structure Routed (s : State) (ms : List Message) (t : State) : Prop where
  cfg : t.cfg = s.cfg
  lifecycle : t.lifecycle = s.lifecycle
  okQ : t.okQ = s.okQ ++ acceptedOf s.cfg ms
  failQ : t.failQ = s.failQ ++ rejectedOf s.cfg ms

/-- A state with the same configuration, STATE, OK and FAIL: no message was checked. -/
theorem Routed.none {s t : State} (hs : SameCfgStatus s t) (hok : t.okQ = s.okQ)
    (hfail : t.failQ = s.failQ) : Routed s [] t := by
  obtain ⟨hcfg, hlife, -⟩ := hs
  exact ⟨hcfg, hlife, by simp [hok, acceptedOf], by simp [hfail, rejectedOf]⟩

theorem Routed.trans {s u t : State} {ms ns : List Message} (h₁ : Routed s ms u)
    (h₂ : Routed u ns t) : Routed s (ms ++ ns) t where
  cfg := h₂.cfg.trans h₁.cfg
  lifecycle := h₂.lifecycle.trans h₁.lifecycle
  okQ := by rw [h₂.okQ, h₁.okQ, h₁.cfg, acceptedOf_append, List.append_assoc]
  failQ := by rw [h₂.failQ, h₁.failQ, h₁.cfg, rejectedOf_append, List.append_assoc]

/-- The schedule of the earlier state does not matter. -/
theorem Routed.of_withMoves {s t : State} {rest : List Move} {ms : List Message}
    (h : Routed (s.withMoves rest) ms t) : Routed s ms t :=
  ⟨h.cfg, h.lifecycle, h.okQ, h.failQ⟩

theorem State.routed_checked (s : State) : Routed s (s.inQ.take 1) s.checked :=
  ⟨rfl, rfl, rfl, rfl⟩

/-- A defined move that neither resets the block nor removes a message. -/
def Move.Feeds (m : Move) : Prop :=
  m.Defined ∧ m ≠ .reset ∧ m ≠ .removeOk ∧ m ≠ .removeFail

/-- A move with a meaning answers a next state (R162, R219). -/
theorem runMove_of_defined {m : Move} (hm : m.Defined) (s : State) : ∃ t, runMove m s = .next t := by
  cases m with
  | reg h d =>
    obtain ⟨i, hi⟩ := hm
    rcases issueReg_cases h d s with ⟨r, hr, _⟩ | ⟨_, e⟩ | ⟨_, _, e⟩ | ⟨e, _⟩ | e
    · nomatch hr.symm.trans hi
    all_goals exact ⟨_, e⟩
  | append msg =>
    rcases offerPdu_cases msg s with ⟨_, e⟩ | ⟨hlong, _⟩
    · exact ⟨_, e⟩
    · exact absurd hm hlong.not_ge
  | check =>
    rcases checkHead_cases s with ⟨_, e⟩ | ⟨_, _, _, _, e⟩ <;> exact ⟨_, e⟩
  | removeOk | removeFail | reset => exact ⟨_, rfl⟩

/-- A move of such a schedule in READY loses no message: those of IN and the one it appends are the
one it checks, if any, and those of IN after it. -/
theorem MoveEffect.routes {s t : State} {m : Move} (he : MoveEffect s m t) (hl : s.lifecycle = .ready)
    (hm : m.Feeds) :
    ∃ taken, Routed s taken t ∧ taken ++ t.inQ = s.inQ ++ m.appended.toList := by
  obtain ⟨-, hreset, hremoveOk, hremoveFail⟩ := hm
  have hl' : s.lifecycle ≠ .unconfigured := by simp [hl]
  have hsame := he.sameCfgStatus hl' hreset
  cases he with
  | routed msg q _ hq =>
    rw [State.takeIn_route_eq_checked hq]
    exact ⟨_, s.routed_checked, by simp [State.checked, hq, Move.appended]⟩
  | wrote _ _ r v =>
    exact ⟨[], .none hsame (s.cfgWrite_okQ r v) (s.cfgWrite_failQ r v), by simp [Move.appended]⟩
  | answered | constructed | ignored | appended | waited =>
    exact ⟨[], .none hsame rfl rfl, by simp [Move.appended]⟩
  | removedOk => exact absurd rfl hremoveOk
  | removedFail => exact absurd rfl hremoveFail
  | wasReset => exact absurd rfl hreset

/-! ### Runs in READY -/

/-- A block in which every message of IN has gone to the channel of its verdict, in order. -/
def State.drained (s : State) : State :=
  { s with
    inQ := []
    okQ := s.okQ ++ acceptedOf s.cfg s.inQ
    failQ := s.failQ ++ rejectedOf s.cfg s.inQ }

theorem State.drained_of_empty {s : State} (hq : s.inQ = []) : s.drained = s := by
  obtain ⟨cfg, lifecycle, cause, inQ, okQ, failQ, responses, moves⟩ := s
  cases hq
  simp [drained, acceptedOf, rejectedOf]

theorem State.drained_checked (s : State) : s.checked.drained = s.drained := by
  have hsplit : s.inQ.take 1 ++ s.inQ.tail = s.inQ := by
    rw [← List.drop_one, List.take_append_drop]
  simp only [drained, checked, List.append_assoc, ← acceptedOf_append, ← rejectedOf_append, hsplit]

/-- With no move pending, a READY block checks one message of IN at each step, and is idle when IN is
empty (R161, R227, log entry 5). -/
theorem run_drains {k : Nat} {s : State} (hl : s.lifecycle = .ready) (hm : s.moves = [])
    (hk : s.inQ.length ≤ k) : run k s = .next s.drained := by
  induction k generalizing s with
  | zero => rw [State.drained_of_empty (List.length_eq_zero_iff.mp (Nat.le_zero.mp hk)), run_zero]
  | succ k ih =>
    have hstep : step s = .next s.checked := (step_idle hm).trans (checkHead_ready hl)
    have hlen : s.checked.inQ.length ≤ k := by
      rw [State.checked, List.length_tail]
      omega
    rw [run_succ_next k hstep, ih (s := s.checked) hl hm hlen, State.drained_checked]

/-- The messages that a schedule appends are those of its first move and of the rest. -/
theorem filterMap_appended_cons (m : Move) (ms : List Move) :
    (m :: ms).filterMap Move.appended = m.appended.toList ++ ms.filterMap Move.appended := by
  cases m <;> rfl

/-- Under a schedule of such moves, a READY block routes the messages of IN and the appended ones in
order, when the run has a step for each move and each message (R74, R161). -/
theorem run_routes_schedule {k : Nat} {s : State} {ms : List Move} (hl : s.lifecycle = .ready)
    (hms : s.moves = ms) (hfeeds : ∀ m ∈ ms, m.Feeds)
    (hk : ms.length + (s.inQ ++ ms.filterMap Move.appended).length ≤ k) :
    ∃ t, run k s = .next t ∧ Routed s (s.inQ ++ ms.filterMap Move.appended) t ∧
      t.inQ = [] ∧ t.moves = [] := by
  induction ms generalizing s k with
  | nil =>
    rw [List.filterMap_nil, List.append_nil] at hk ⊢
    exact ⟨_, run_drains hl hms (by simpa using hk), ⟨rfl, rfl, rfl, rfl⟩, rfl, hms⟩
  | cons m rest ih =>
    obtain ⟨hm, hrest⟩ := List.forall_mem_cons.mp hfeeds
    obtain ⟨u, hu⟩ := runMove_of_defined hm.1 (s.withMoves rest)
    have he := runMove_effect hu
    obtain ⟨taken, hrouted, hsplit⟩ := he.routes hl hm
    have hpdus : s.inQ ++ (m :: rest).filterMap Move.appended =
        taken ++ (u.inQ ++ rest.filterMap Move.appended) := by
      rw [filterMap_appended_cons, ← List.append_assoc, ← List.append_assoc, hsplit]
      rfl
    rw [hpdus] at hk ⊢
    rw [List.length_append, List.length_cons] at hk
    obtain ⟨k, rfl⟩ : ∃ j, k = j + 1 := ⟨k - 1, by omega⟩
    rw [run_succ_next k ((step_move hms).trans hu)]
    obtain ⟨t, ht, hroute, hend⟩ := ih (k := k) (hrouted.lifecycle.trans hl) he.moves_eq hrest
      (by omega)
    exact ⟨t, ht, hrouted.of_withMoves.trans hroute, hend⟩

/-- With nothing in IN and no move pending the run is over (R254). -/
theorem State.over_of_idle {s : State} (hm : s.moves = []) (hq : s.inQ = []) : s.Over := by
  refine ⟨?_, hq, by rw [hm]; rfl⟩
  rw [refusalMark, step_idle hm, checkHead, hq]

/-- Settles O54: no move of the schedule loses a message, and with no move pending IN runs empty. -/
theorem everyScheduleRoutesTheSame : Obligations.EveryScheduleRoutesTheSame := by
  intro s ms hl hfeeds
  obtain ⟨t, ht, hr, hq, hm⟩ :=
    run_routes_schedule (s := s.withMoves ms) hl rfl hfeeds le_rfl
  exact ⟨t, ht, hr.okQ, hr.failQ, hr.cfg, hr.lifecycle.trans hl, hm, State.over_of_idle hm hq⟩

end Sys2Proof.Machine
end

section
/-! PROOFS. The encoding: the decoder and the encoder are inverse to each other (R97, R98), the
reserved headers (R104), and the operations that are a no-op in every state (R105). -/

namespace Sys2Proof.Machine

/-! ### The decoder inverts the encoder -/

/-- A read ignores DATA, so the word that a canonical frame drops decides nothing (R98). -/
theorem decode_canonical (f : Frame) : decode f.canonical = decode f := by
  cases f with
  | pdu m => rfl
  | reg h d => cases hw : h.rw <;> simp [Frame.canonical, decode, decodeReg, hw]

theorem decode_encode {i : Instr} (hi : i.wellFormed = true) : decode (encode i) = .instr i := by
  cases i with
  | submit m => exact if_pos hi
  | _ => rfl

/-- Only SUBMIT has an operand with a check (R107, R108). -/
theorem wellFormed_of_ne_submit {i : Instr} (hi : ∀ m, i ≠ .submit m) : i.wellFormed = true := by
  cases i with
  | submit m => exact absurd rfl (hi m)
  | _ => rfl

theorem encode_readOf (j : BitVec 3) : encode (readOf j) = readFrame j := by
  revert j; decide

theorem writeOf_cmd (d : Word) :
    writeOf 6 d = if d = 1 then .instr .construct else .reject .reservedCommand := rfl

theorem encode_of_writeOf {j : BitVec 3} {d : Word} {i : Instr} (hi : writeOf j d = .instr i) :
    encode i = writeFrame j d := by
  rcases idx_cases j with ⟨r, rfl⟩ | rfl | rfl
  · cases r <;> cases hi <;> rfl
  · rw [writeOf_cmd] at hi
    split at hi <;> cases hi
    subst d
    rfl
  · cases hi
    rfl

theorem canonical_read (j : BitVec 3) (d : Word) :
    Frame.canonical (.reg (headerOf false j) d) = readFrame j := by
  simp [Frame.canonical, readFrame]

theorem canonical_write (j : BitVec 3) (d : Word) :
    Frame.canonical (.reg (headerOf true j) d) = writeFrame j d := by
  simp [Frame.canonical, writeFrame]

/-- A frame that decodes to an operation is, less the word a read does not carry, its encoding. -/
theorem canonical_eq_encode_of_decode {f : Frame} {i : Instr} (hi : decode f = .instr i) :
    f.canonical = encode i := by
  cases f with
  | pdu m =>
    rw [decode_pdu] at hi
    split at hi <;> cases hi
    rfl
  | reg h d =>
    change decodeReg h d = .instr i at hi
    rcases decodeReg_cases h d with ⟨_, e⟩ | ⟨hh, e⟩ | ⟨hh, e⟩ <;> rw [e] at hi
    · nomatch hi
    · cases hi
      rw [encode_readOf, hh, canonical_read, idx_headerOf]
    · rw [encode_of_writeOf hi, hh, canonical_write, idx_headerOf]

theorem wellFormed_of_decode {f : Frame} {i : Instr} (hi : decode f = .instr i) :
    i.wellFormed = true := by
  cases f with
  | pdu m =>
    rw [decode_pdu] at hi
    split at hi <;> cases hi
    assumption
  | reg h d =>
    refine wellFormed_of_ne_submit fun m hm => ?_
    subst hm
    exact decodeReg_ne_submit h d m hi

/-- Settles O39: a decoded operation is well formed and its encoding is the canonical frame, and a
well-formed operation's encoding decodes to it, as does every frame with that canonical form. -/
theorem decodeExactlyInvertsEncode : Obligations.DecodeExactlyInvertsEncode := by
  intro f i
  constructor
  · exact fun hi => ⟨wellFormed_of_decode hi, canonical_eq_encode_of_decode hi⟩
  · rintro ⟨hwf, hf⟩
    rw [← decode_canonical, hf, decode_encode hwf]

/-! ### The opcode table and the reserved headers -/

/-- Settles O37: each header of the table is built from its RW and IDX fields, and the decoder reads
those fields; the last clause is the decoder of channel IN. -/
theorem headersDecodeByTheTable : Obligations.HeadersDecodeByTheTable := fun d _ =>
  ⟨decode_read 0 d, decode_read 1 d, decode_read 2 d, decode_read 3 d, decode_read 4 d,
    decode_read 5 d, decode_read 6 d, decode_read 7 d, decode_write 0 d, decode_write 1 d,
    decode_write 2 d, decode_write 3 d, decode_write 4 d, decode_write 5 d, decode_write 6 1,
    fun hd => (decode_write 6 d).trans (if_neg hd), decode_write 7 d,
    fun hm => if_pos (decide_eq_true hm)⟩

theorem toNat_rsvd (h : Header) : (Header.rsvd h).toNat = h.toNat / 8 % 16 := by
  simp [Header.rsvd, Nat.shiftRight_eq_div_pow]

/-- Neither a read nor a write is refused for its header. -/
theorem decodeReg_eq_reservedHeader_iff (h : Header) (d : Word) :
    decodeReg h d = .reject .reservedHeader ↔ Header.rsvd h ≠ 0 := by
  refine ⟨fun e hr => ?_, fun hr => if_pos hr⟩
  rcases decodeReg_cases h d with ⟨hr', _⟩ | ⟨_, e'⟩ | ⟨_, e'⟩
  · exact hr' hr
  · nomatch e'.symm.trans e
  · have hw := e'.symm.trans e
    unfold writeOf at hw
    repeat' split at hw
    all_goals nomatch hw

/-- The reserved headers in numbers: H[6:3] is the header divided by 8, less bit 7 (R104). -/
theorem decode_eq_reservedHeader_iff (h : Header) (d : Word) :
    decode (.reg h d) = .reject .reservedHeader ↔ h.toNat / 8 % 16 ≠ 0 := by
  rw [← toNat_rsvd, decode, decodeReg_eq_reservedHeader_iff, ne_eq, ← BitVec.toNat_inj]
  rfl

/-- Settles O38: the header is refused exactly for RSVD other than 0, and by that test the count is
one of numbers. -/
theorem reservedHeadersAreRefused : Obligations.ReservedHeadersAreRefused := by
  refine ⟨decode_eq_reservedHeader_iff, ?_⟩
  simp only [decode_eq_reservedHeader_iff, BitVec.toNat_ofNat]
  rfl

/-! ### The operations that are a no-op in every state -/

/-- An operation that changes no state of the block and answers alike in every state (R105). -/
def IsNoOp (i : Instr) : Prop :=
  ∃ vs : List Word, ∀ s : State, exec i s = .next { s with responses := s.responses ++ vs }

theorem IsNoOp.keeps {i : Instr} (h : IsNoOp i) {s t : State} (he : exec i s = .next t) :
    t.cfg = s.cfg ∧ t.lifecycle = s.lifecycle ∧ t.inQ = s.inQ := by
  obtain ⟨vs, h⟩ := h
  cases he.symm.trans (h s)
  exact ⟨rfl, rfl, rfl⟩

theorem IsNoOp.answers_alike {i : Instr} (h : IsNoOp i) {s s' t t' : State}
    (hs : s.responses = s'.responses) (he : exec i s = .next t) (he' : exec i s' = .next t') :
    t.responses = t'.responses := by
  obtain ⟨vs, h⟩ := h
  cases he.symm.trans (h s)
  cases he'.symm.trans (h s')
  exact congrArg (· ++ vs) hs

/-- The power-on state with every configuration register at one value. -/
def filledState (v : Word) : State := { State.reset with cfg := ⟨v, v, v, v, v, v⟩ }

@[simp] theorem filledState_get (v : Word) (r : CfgReg) : (filledState v).cfg.get r = v := by
  cases r <;> rfl

/-- A read of a configuration register answers 0 in one state and 1 in another. -/
theorem not_isNoOp_of_readCfg {i : Instr} {r : CfgReg}
    (he : ∀ s, exec i s = .next (s.readCfg r)) : ¬ IsNoOp i := by
  intro h
  have hresp := h.answers_alike (s := filledState 0) (s' := filledState 1) rfl (he _) (he _)
  rw [State.readCfg_responses, State.readCfg_responses, filledState_get, filledState_get] at hresp
  exact absurd hresp (by decide)

/-- A configuration write changes its register in an unconfigured state that holds another value. -/
theorem not_isNoOp_of_cfgWrite {i : Instr} {r : CfgReg} {v : Word}
    (he : ∀ s, exec i s = .next (s.cfgWrite r v)) : ¬ IsNoOp i := by
  intro h
  obtain ⟨hcfg, -, -⟩ := h.keeps (he (filledState (v + 1)))
  have hget : v = v + 1 := by
    have := congrArg (CfgRegs.get · r) hcfg
    rwa [State.cfgWrite_of_unconfigured _ _ _ rfl, CfgRegs.get_set_same, filledState_get] at this
  bv_omega

/-- CONSTRUCT leaves UNCONFIGURED. -/
theorem not_isNoOp_construct : ¬ IsNoOp .construct := by
  intro h
  obtain ⟨-, hl, -⟩ := h.keeps (exec_construct_of_unconfigured (s := State.reset) rfl)
  exact absurd hl (by decide)

/-- RD_STATUS answers differently in UNCONFIGURED and in READY. -/
theorem not_isNoOp_rdStatus : ¬ IsNoOp .rdStatus := fun h =>
  absurd (h.answers_alike (s := State.reset) (s' := { State.reset with lifecycle := .ready })
    rfl rfl rfl) (by decide)

/-- The power-on state, made READY with one message in IN. -/
def waitingState (m : Message) : State := { State.reset with lifecycle := .ready, inQ := [m] }

/-- SUBMIT takes its message from the head of IN in READY. -/
theorem not_isNoOp_submit (m : Message) : ¬ IsNoOp (.submit m) := by
  intro h
  have he : exec (.submit m) (waitingState m) =
      .next ((waitingState m).takeIn.route (checkPdu (waitingState m).cfg m)) :=
    execSubmit_enabled (s := waitingState m) (m := m) rfl rfl
  obtain ⟨-, -, hq⟩ := h.keeps he
  rw [State.route_inQ] at hq
  exact List.cons_ne_nil m [] hq.symm

/-- Settles O11: each other operation has a state that it changes, or two that it answers
differently. -/
theorem onlyTwoOperationsAreNoOpsInEveryState :
    Obligations.OnlyTwoOperationsAreNoOpsInEveryState := by
  intro i
  change IsNoOp i ↔ _
  constructor
  · intro h
    cases i with
    | rdCmd => exact .inl rfl
    | wrStatus v => exact .inr ⟨v, rfl⟩
    | construct => exact absurd h not_isNoOp_construct
    | rdStatus => exact absurd h not_isNoOp_rdStatus
    | submit m => exact absurd h (not_isNoOp_submit m)
    | rdNumBits | rdPoly | rdInit | rdXorout | rdFlags | rdSkip =>
      exact absurd h (not_isNoOp_of_readCfg fun _ => rfl)
    | wrNumBits v | wrPoly v | wrInit v | wrXorout v | wrFlags v | wrSkip v =>
      exact absurd h (not_isNoOp_of_cfgWrite fun _ => rfl)
  · rintro (rfl | ⟨v, rfl⟩)
    · exact ⟨[0], fun _ => rfl⟩
    · exact ⟨[], fun s => by rw [List.append_nil]; rfl⟩

end Sys2Proof.Machine
end

section
/-! PROOFS. The assembly language: what PRESET_CRC32 does, that a disassembled operation assembles
to its frame, and that its printed text reads back (R110, R111). -/

namespace Sys2Proof.Machine

/-! ### Configuration writes in a row -/

/-- The frame that writes a configuration register, as a move. -/
def cfgWriteMove (w : CfgReg × Word) : Move := .reg (headerOf true w.1.idx) w.2

/-- A row of configuration writes, the first one first. -/
def CfgRegs.setAll (c : CfgRegs) (ws : List (CfgReg × Word)) : CfgRegs :=
  ws.foldl (fun c w => c.set w.1 w.2) c

/-- In UNCONFIGURED each configuration write at the head of the schedule is stored (R189). -/
theorem run_cfgWrites {s : State} (hs : s.lifecycle = .unconfigured)
    (ws : List (CfgReg × Word)) (k : Nat) (rest : List Move) :
    run (k + ws.length) (s.withMoves (ws.map cfgWriteMove ++ rest)) =
      run k { s with cfg := s.cfg.setAll ws, moves := rest } := by
  induction ws generalizing s with
  | nil => rfl
  | cons w ws ih =>
    have hstep : step (s.withMoves ((w :: ws).map cfgWriteMove ++ rest)) =
        .next ((s.cfgWrite w.1 w.2).withMoves (ws.map cfgWriteMove ++ rest)) :=
      (step_write rfl).trans (congrArg _ (s.cfgWrite_withMoves _ w.1 w.2))
    have hlen : k + (w :: ws).length = k + ws.length + 1 := rfl
    rw [hlen, run_succ_next _ hstep, ih ((s.cfgWrite_lifecycle w.1 w.2).trans hs),
      State.cfgWrite_of_unconfigured _ _ _ hs]
    rfl

/-- Settles O42: the five moves are configuration writes, each stored. -/
theorem presetSetsFiveRegisters : Obligations.PresetSetsFiveRegisters := fun _ _ hs =>
  run_cfgWrites hs [(.numBits, 32), (.poly, 0x04C11DB7), (.init, 0xFFFFFFFF),
    (.xorout, 0xFFFFFFFF), (.flags, 0x3)] 0 []

/-! ### The disassembler -/

theorem AsmReg.idx_ofIdx (j : BitVec 3) : (AsmReg.ofIdx j).idx = j := by
  revert j; decide

theorem disassemble_of_reject {h : Header} {d : Word} {r : Reject}
    (hr : decodeReg h d = .reject r) : disassemble h d = none := by
  simp only [disassemble, hr]

theorem disassemble_of_construct {h : Header} {d : Word}
    (hi : decodeReg h d = .instr .construct) : disassemble h d = some .construct := by
  simp only [disassemble, hi]

/-- Every decoded operation but CONSTRUCT is shown by its header (R111). -/
theorem disassemble_of_instr {h : Header} {d : Word} {i : Instr} (hi : decodeReg h d = .instr i)
    (hc : i ≠ .construct) :
    disassemble h d = if h.rw then some (.wr (AsmReg.ofIdx h.idx) (.number d))
      else some (.rd (AsmReg.ofIdx h.idx)) := by
  unfold disassemble
  rw [hi]
  split
  · contradiction
  · next e => exact absurd (Decoded.instr.inj e) hc
  · rfl

theorem disassemble_eq_none_iff (h : Header) (d : Word) :
    disassemble h d = none ↔ ∃ r, decodeReg h d = .reject r := by
  refine ⟨fun hn => ?_, fun ⟨r, hr⟩ => disassemble_of_reject hr⟩
  cases hd : decodeReg h d with
  | reject r => exact ⟨r, rfl⟩
  | instr i =>
    by_cases hc : i = .construct
    · subst hc
      nomatch (disassemble_of_construct hd).symm.trans hn
    · rw [disassemble_of_instr hd hc] at hn
      split at hn <;> nomatch hn

theorem readOf_ne_construct (j : BitVec 3) : readOf j ≠ .construct := by
  revert j; decide

/-- The only write frame of CONSTRUCT is the write of 1 to CMD (R106). -/
theorem writeOf_eq_construct {j : BitVec 3} {d : Word} (hi : writeOf j d = .instr .construct) :
    headerOf true j = headerOf true 6 ∧ d = 1 := by
  injection encode_of_writeOf hi with hh hd
  exact ⟨hh.symm, hd.symm⟩

/-- What the disassembler shows: a read of a register for its read frame, CONSTRUCT for the write of
1 to CMD, and a write of the DATA word for any other write frame (R111). -/
theorem disassemble_cases {h : Header} {d : Word} {op : AsmOp} (ho : disassemble h d = some op) :
    (∃ r : AsmReg, h = headerOf false r.idx ∧ op = .rd r) ∨
    (h = headerOf true AsmReg.cmd.idx ∧ d = 1 ∧ op = .construct) ∨
    (∃ r : AsmReg, h = headerOf true r.idx ∧ op = .wr r (.number d)) := by
  rcases decodeReg_cases h d with ⟨_, e⟩ | ⟨hh, e⟩ | ⟨hh, e⟩
  · nomatch (disassemble_of_reject e).symm.trans ho
  · have hw : h.rw = false := by rw [hh, rw_headerOf]
    rw [disassemble_of_instr e (readOf_ne_construct _), hw] at ho
    exact .inl ⟨AsmReg.ofIdx h.idx, by rwa [AsmReg.idx_ofIdx], by simpa using ho.symm⟩
  · have hw : h.rw = true := by rw [hh, rw_headerOf]
    cases hi : writeOf h.idx d with
    | reject r => nomatch (disassemble_of_reject (e.trans hi)).symm.trans ho
    | instr i =>
      by_cases hc : i = .construct
      · subst hc
        obtain ⟨hcmd, hd⟩ := writeOf_eq_construct hi
        rw [disassemble_of_construct (e.trans hi)] at ho
        exact .inr (.inl ⟨hh.trans hcmd, hd, (Option.some.inj ho).symm⟩)
      · rw [disassemble_of_instr (e.trans hi) hc, hw] at ho
        exact .inr (.inr ⟨AsmReg.ofIdx h.idx, by rwa [AsmReg.idx_ofIdx], by simpa using ho.symm⟩)

/-- A shown operation assembles to the move of its frame, less the word a read does not carry. -/
theorem assemble_of_disassemble {h : Header} {d : Word} {op : AsmOp}
    (ho : disassemble h d = some op) (names : List Char → Meta) :
    op.assemble names = [moveOf (Frame.canonical (.reg h d))] := by
  rcases disassemble_cases ho with ⟨r, rfl, rfl⟩ | ⟨rfl, rfl, rfl⟩ | ⟨r, rfl, rfl⟩
  · rw [canonical_read]; rfl
  · rw [canonical_write]; rfl
  · rw [canonical_write]; rfl

/-- Settles O40: nothing is shown exactly for a refused frame, and each of the three shown forms
assembles to its frame. -/
theorem disassemblyAssemblesBack : Obligations.DisassemblyAssemblesBack := fun h d names =>
  ⟨disassemble_eq_none_iff h d, fun _ ho => assemble_of_disassemble ho names⟩

/-! ### Hexadecimal digits -/

theorem hexValue_hexDigit {n : Nat} (h : n < 16) : hexValue (hexDigit n) = some n := by
  revert n; decide

theorem wordChar_hexDigit {n : Nat} (h : n < 16) : wordChar (hexDigit n) = true := by
  revert n; decide

theorem all_wordChar_hexDigits (n v : Nat) : (hexDigits n v).all wordChar = true := by
  induction n generalizing v with
  | zero => rfl
  | succ n ih => simp [hexDigits, ih, wordChar_hexDigit (Nat.mod_lt v (by decide : 0 < 16))]

theorem readDigits_append (base : Nat) (value : Char → Option Nat) (acc : Nat)
    (cs ds : List Char) :
    readDigits base value acc (cs ++ ds) =
      (readDigits base value acc cs).bind fun a => readDigits base value a ds := by
  induction cs generalizing acc with
  | nil => rfl
  | cons c cs ih => cases hc : value c <;> simp [readDigits, hc, ih]

/-- The last `n` hexadecimal digits of a number read as its value below 16^n. -/
theorem readDigits_hexDigits (n v : Nat) :
    readDigits 16 hexValue 0 (hexDigits n v) = some (v % 16 ^ n) := by
  induction n generalizing v with
  | zero => simp [hexDigits, readDigits, Nat.mod_one]
  | succ n ih =>
    rw [hexDigits, readDigits_append, ih]
    simp [readDigits, hexValue_hexDigit (Nat.mod_lt v (by decide : 0 < 16)), pow_succ',
      Nat.mod_mul, Nat.add_comm]

theorem readNumber_hex {cs : List Char} {v : Word} (hne : cs ≠ [])
    (h : readDigits 16 hexValue 0 cs = some v.toNat) : readNumber ('0' :: 'x' :: cs) = some v := by
  cases cs with
  | nil => exact absurd rfl hne
  | cons c cs =>
    have hlt : v.toNat < 2 ^ 64 := v.isLt
    rw [readNumber, h, Option.bind_some, if_pos hlt, BitVec.ofNat_toNat, BitVec.setWidth_eq]

/-- The sixteen digits printed for a DATA word read as that word. -/
theorem readNumber_hexDigits (v : Word) :
    readNumber ('0' :: 'x' :: hexDigits 16 v.toNat) = some v := by
  refine readNumber_hex (List.append_ne_nil_of_right_ne_nil _ (List.cons_ne_nil _ _)) ?_
  have hlt : v.toNat < 16 ^ 16 := v.isLt
  rw [readDigits_hexDigits, Nat.mod_eq_of_lt hlt]

/-! ### Reading a printed line -/

/-- Inside a word the lexer takes every character of a word. -/
theorem lex_word_append {cs : List Char} (h : cs.all wordChar = true) (acc rest : List Char) :
    lex (.word acc) (cs ++ rest) = lex (.word (cs.reverse ++ acc)) rest := by
  induction cs generalizing acc with
  | nil => rfl
  | cons c cs ih =>
    obtain ⟨hc, hcs⟩ : wordChar c = true ∧ cs.all wordChar = true := by simpa using h
    simp [lex, hc, ih hcs]

/-- Between tokens a character of a word starts one. -/
theorem lex_plain_cons {c : Char} (hc : wordChar c = true) (cs : List Char) :
    lex .plain (c :: cs) = lex (.word [c]) cs := by
  have hsemi : c ≠ ';' := by rintro rfl; exact absurd hc (by decide)
  simp [lex, lexPlain, hc, hsemi]

/-- A word, and then what comes after it. -/
theorem lex_plain_append {cs : List Char} (hne : cs ≠ []) (h : cs.all wordChar = true)
    (rest : List Char) : lex .plain (cs ++ rest) = lex (.word cs.reverse) rest := by
  cases cs with
  | nil => exact absurd rfl hne
  | cons c cs =>
    obtain ⟨hc, hcs⟩ : wordChar c = true ∧ cs.all wordChar = true := by simpa using h
    rw [List.cons_append, lex_plain_cons hc, lex_word_append hcs, List.reverse_cons]

/-- A line of one word. -/
theorem lex_plain_word {cs : List Char} (hne : cs ≠ []) (h : cs.all wordChar = true) :
    lex .plain cs = some [.word cs] := by
  simpa [lex] using lex_plain_append hne h []

/-- The lexer skips a blank between tokens. -/
theorem lex_plain_blank (cs : List Char) : lex .plain (' ' :: cs) = lex .plain cs :=
  congrFun Option.map_id _

/-- A blank ends a word. -/
theorem lex_word_blank (acc cs : List Char) :
    lex (.word acc) (' ' :: cs) = (lex .plain cs).map (.word acc.reverse :: ·) := rfl

/-- A comma ends a word and is a token of its own. -/
theorem lex_word_comma (acc cs : List Char) :
    lex (.word acc) (',' :: cs) = (lex .plain cs).map (.word acc.reverse :: .comma :: ·) := rfl

theorem AsmReg.name_ne_nil (r : AsmReg) : r.name ≠ [] := by cases r <;> decide

theorem AsmReg.all_wordChar_name (r : AsmReg) : r.name.all wordChar = true := by
  cases r <;> decide

theorem readReg_name (r : AsmReg) : readReg r.name = some r := by cases r <;> rfl

theorem readLine_of_lex {text : List Char} {toks : List Tok} {op : AsmOp}
    (ht : lex .plain text = some toks) (ho : readOp toks = some op) :
    readLine text = some (some op) := by
  cases toks with
  | nil => nomatch ho
  | cons t ts =>
    rw [readLine, ht, Option.bind_some]
    exact congrArg (Option.map some) ho

/-- A keyword, a blank, and the rest of the line. -/
theorem lex_keyword {k : List Char} (hne : k ≠ []) (hk : k.all wordChar = true) (rest : List Char) :
    lex .plain (k ++ ' ' :: rest) = (lex .plain rest).map (.word k :: ·) := by
  rw [lex_plain_append hne hk, lex_word_blank, List.reverse_reverse]

theorem readLine_construct :
    readLine ['C', 'O', 'N', 'S', 'T', 'R', 'U', 'C', 'T'] = some (some .construct) := rfl

theorem readLine_rd (r : AsmReg) : readLine (['R', 'D', ' '] ++ r.name) = some (some (.rd r)) := by
  have ht : lex .plain (['R', 'D'] ++ ' ' :: r.name) = some [.word ['R', 'D'], .word r.name] := by
    rw [lex_keyword (by decide) (by decide), lex_plain_word r.name_ne_nil r.all_wordChar_name]
    rfl
  exact readLine_of_lex ht (congrArg (Option.map AsmOp.rd) (readReg_name r))

theorem readOp_wr (r : AsmReg) {cs : List Char} {v : Word} (hv : readNumber cs = some v) :
    readOp [.word ['W', 'R'], .word r.name, .comma, .word cs] = some (.wr r (.number v)) := by
  change ((readReg r.name).bind fun r => ((readNumber cs).map AsmValue.number).map (AsmOp.wr r)) = _
  rw [readReg_name, hv]
  rfl

theorem readLine_wr (r : AsmReg) {cs : List Char} {v : Word} (hne : cs ≠ [])
    (hcs : cs.all wordChar = true) (hv : readNumber cs = some v) :
    readLine (['W', 'R', ' '] ++ r.name ++ [',', ' '] ++ cs) = some (some (.wr r (.number v))) := by
  have ht : lex .plain (['W', 'R'] ++ ' ' :: (r.name ++ ',' :: ' ' :: cs)) =
      some [.word ['W', 'R'], .word r.name, .comma, .word cs] := by
    rw [lex_keyword (by decide) (by decide), lex_plain_append r.name_ne_nil r.all_wordChar_name,
      lex_word_comma, lex_plain_blank, lex_plain_word hne hcs,
      List.reverse_reverse]
    rfl
  rw [List.append_assoc, List.append_assoc]
  exact readLine_of_lex ht (readOp_wr r hv)

/-- The line of a write, with the digits of its DATA word. -/
theorem readLine_wr_hexDigits (r : AsmReg) (v : Word) :
    readLine (['W', 'R', ' '] ++ r.name ++ [',', ' ', '0', 'x'] ++ hexDigits 16 v.toNat) =
      some (some (.wr r (.number v))) := by
  have hcs : ('0' :: 'x' :: hexDigits 16 v.toNat).all wordChar = true := by
    simp [all_wordChar_hexDigits, wordChar]
  simpa using readLine_wr r (List.cons_ne_nil _ _) hcs (readNumber_hexDigits v)

/-- A printed line reads as the operation that it was printed for. -/
theorem readLine_of_printReg {h : Header} {d : Word} {text : List Char}
    (ht : printReg h d = some text) :
    ∃ op, disassemble h d = some op ∧ readLine text = some (some op) := by
  cases ho : disassemble h d with
  | none => rw [printReg, ho] at ht; nomatch ht
  | some op =>
    refine ⟨op, rfl, ?_⟩
    rw [printReg, ho] at ht
    rcases disassemble_cases ho with ⟨r, -, rfl⟩ | ⟨-, -, rfl⟩ | ⟨r, -, rfl⟩ <;> cases ht
    · exact readLine_rd r
    · exact readLine_construct
    · exact readLine_wr_hexDigits r d

/-- Settles O41: the printed line reads as the shown operation, which assembles to its frame. -/
theorem printedTextReadsBack : Obligations.PrintedTextReadsBack := by
  intro h d names text ht
  obtain ⟨op, ho, hline⟩ := readLine_of_printReg ht
  simp [assembleText, hline, assemble_of_disassemble ho names]

end Sys2Proof.Machine
end

section
/-! PROOFS. The CRC Engine (R120 to R137): the formulas of the spec on natural numbers, the table
form and the right-shifting form, its affinity, and what a flipped bit does to the result. -/

namespace Sys2Proof.Machine

variable {w : Nat}

/-! ### BitStep and the engine on natural numbers -/

/-- Keeping the bits under MASK is the remainder modulo 2^W (R11). -/
theorem and_mask (x w : Nat) : x &&& mask w = x % 2 ^ w := Nat.and_two_pow_sub_one_eq_mod x w

/-- Reading a register as W bits is masking it (R121, R126, R129). -/
theorem toNat_setWidth_eq_and_mask (v : Word) (w : Nat) :
    (v.setWidth w).toNat = v.toNat &&& mask w := by
  rw [BitVec.toNat_setWidth, and_mask]

theorem toNat_topBit (hw : 1 ≤ w) (b : Bool) : (topBit w b).toNat = b.toNat <<< (w - 1) := by
  cases b with
  | false => simp
  | true =>
    have hone : 1 < 2 ^ w := Nat.one_lt_two_pow (by omega)
    have hlt : 2 ^ (w - 1) < 2 ^ w := Nat.pow_lt_pow_right (by decide) (by omega)
    simp [topBit, Nat.mod_eq_of_lt hone, Nat.shiftLeft_eq, Nat.mod_eq_of_lt hlt]

/-- BitStep is the formula of R124, for every number POLY with the same masked value. -/
theorem toNat_bitStep (hw : 1 ≤ w) {poly : BitVec w} {POLY : Nat}
    (hp : poly.toNat = POLY &&& mask w) (reg : BitVec w) (b : Bool) :
    (bitStep poly reg b).toNat = natBitStep w POLY reg.toNat b := by
  have htop : reg.toNat ^^^ b.toNat <<< (w - 1) = (reg ^^^ topBit w b).toNat := by
    rw [BitVec.toNat_xor, toNat_topBit hw]
  have hmsb : (reg ^^^ topBit w b).toNat.testBit (w - 1) = (reg ^^^ topBit w b).msb :=
    (BitVec.msb_eq_getLsbD_last _).symm
  rw [natBitStep, htop, hmsb, ← hp, and_mask, ← BitVec.toNat_shiftLeft, ← BitVec.toNat_xor,
    ← apply_ite BitVec.toNat]
  rfl

/-- Settles O16: both sides of the formula are BitStep on naturals. -/
theorem bitStepFollowsItsFormula : Obligations.BitStepFollowsItsFormula := by
  intro w poly reg b hw
  have hp : poly.toNat = poly.toNat &&& mask w := by
    rw [and_mask, Nat.mod_eq_of_lt poly.isLt]
  rw [toNat_bitStep hw hp, natBitStep]
  simp only [Nat.testBit_eq_decide_div_mod_eq, decide_eq_true_eq, mask]

/-- ByteStep on W bits is ByteStep on natural numbers (R125). -/
theorem toNat_byteStep (hw : 1 ≤ w) {poly : BitVec w} {POLY : Nat}
    (hp : poly.toNat = POLY &&& mask w) (reg : BitVec w) (d : Byte) :
    (byteStep poly reg d).toNat = natByteStep w POLY reg.toNat d.toNat :=
  (List.foldl_hom BitVec.toNat fun r i => (toNat_bitStep hw hp r (d.getLsbD i)).symm).symm

/-- A number modulo 2^n is the sum of its bits below n. -/
theorem sum_testBit (n v : Nat) :
    ((List.range n).map fun i => (v.testBit i).toNat * 2 ^ i).sum = v % 2 ^ n := by
  induction n with
  | zero => simp [Nat.mod_one]
  | succ n ih =>
    rw [List.range_succ, List.map_append, List.sum_append, ih, Nat.mod_pow_succ,
      ← Nat.toNat_testBit]
    simp [Nat.mul_comm]

/-- The two bit reversals agree (R12). -/
theorem natRev_toNat (v : BitVec w) : natRev w v.toNat = (rev v).toNat := by
  rw [← Nat.mod_eq_of_lt (rev v).isLt, ← sum_testBit, natRev]
  congr 1
  refine List.map_congr_left fun i hi => ?_
  have hiw : i < w := List.mem_range.mp hi
  have hbit : v.toNat.testBit (w - 1 - i) = (rev v).toNat.testBit i := by
    change v.getLsbD (w - 1 - i) = (rev v).getLsbD i
    rw [getLsbD_rev, BitVec.getMsbD_eq_getLsbD]
    simp [hiw]
  rw [hbit]

theorem ite_natRev_toNat (f : Bool) (v : BitVec w) :
    (if f then natRev w v.toNat else v.toNat) = (revIf f v).toNat := by
  cases f
  · rfl
  · exact natRev_toNat v

/-- Steps 1 and 2: the engine's register on natural numbers (R121, R122). -/
theorem toNat_feed (hw : 1 ≤ w) {poly : BitVec w} {POLY : Nat}
    (hp : poly.toNat = POLY &&& mask w) (f : Bool) (reg : BitVec w) (bytes : List Byte) :
    (feed poly f reg bytes).toNat = (bytes.map BitVec.toNat).foldl
      (fun r b => natByteStep w POLY r (if f then natRev 8 b else b)) reg.toNat := by
  rw [List.foldl_map, feed]
  refine (List.foldl_hom BitVec.toNat fun r b => ?_).symm
  rw [ite_natRev_toNat, toNat_byteStep hw hp]

/-- The result is a value of W bits (R130). -/
theorem crcCompute_lt (c : CfgRegs) (bytes : List Byte) : crcCompute c bytes < 2 ^ c.width :=
  (c.finish (c.crcRegister bytes)).isLt

/-- Steps 3 to 5: the reflection and the final XOR on natural numbers (R126). -/
theorem CfgRegs.toNat_finish (c : CfgRegs) (reg : BitVec c.width) :
    (c.finish reg).toNat = ((if c.outRefl then natRev c.width reg.toNat else reg.toNat) ^^^
      (c.xorout.toNat &&& mask c.width)) &&& mask c.width := by
  rw [ite_natRev_toNat, ← toNat_setWidth_eq_and_mask, ← BitVec.toNat_xor, and_mask,
    Nat.mod_eq_of_lt (BitVec.isLt _)]
  rfl

/-- Settles O17: each step of the engine is the step of the pseudocode on natural numbers. -/
theorem engineRefinesReferenceSemantics : Obligations.EngineRefinesReferenceSemantics := by
  intro c bytes hv
  obtain ⟨-, hw, -⟩ := width_of_valid hv
  refine ⟨?_, crcCompute_lt c bytes⟩
  rw [crcCompute, c.toNat_finish, CfgRegs.crcRegister, CfgRegs.polyW, CfgRegs.initW,
    toNat_feed (by omega) (toNat_setWidth_eq_and_mask c.poly c.width), toNat_setWidth_eq_and_mask]
  rfl

/-! ### The empty input and the masked configuration -/

/-- Settles O18: no byte changes the register before it is reflected. -/
theorem emptyInputReflectsInit : Obligations.EmptyInputReflectsInit := by
  intro c
  rw [crcCompute, CfgRegs.crcRegister, feed_nil]
  rfl

/-- Equal masked values are the same value of W bits. -/
theorem setWidth_eq_of_and_mask_eq {v v' : Word}
    (h : v.toNat &&& mask w = v'.toNat &&& mask w) : v.setWidth w = v'.setWidth w := by
  apply BitVec.eq_of_toNat_eq
  rw [toNat_setWidth_eq_and_mask, toNat_setWidth_eq_and_mask, h]

/-- Settles O20: the engine names only W, the three values as W bits and the two flags. -/
theorem engineReadsOnlyMaskedValues : Obligations.EngineReadsOnlyMaskedValues := by
  intro c d bytes hn hp hi hx hin hout
  have hw : c.width = d.width := congrArg BitVec.toNat hn
  rw [hw] at hp hi hx
  simp only [crcCompute, CfgRegs.finish, CfgRegs.crcRegister, CfgRegs.polyW, CfgRegs.initW,
    CfgRegs.xoroutW]
  rw [hin, hout, hw, setWidth_eq_of_and_mask_eq hp, setWidth_eq_of_and_mask_eq hi,
    setWidth_eq_of_and_mask_eq hx]

/-! ### A zero polynomial -/

/-- A data bit in the top position is shifted out in its own step (R133). -/
theorem topBit_shiftLeft_one (b : Bool) : topBit w b <<< 1 = 0#w := by
  rw [topBit, ← BitVec.shiftLeft_add]
  exact BitVec.shiftLeft_eq_zero (by omega)

/-- With a zero polynomial BitStep only shifts (R133). -/
theorem bitStep_zero_poly (reg : BitVec w) (b : Bool) : bitStep 0#w reg b = reg <<< 1 := by
  rw [bitStep_eq_shiftStep, shiftStep_zero_poly, BitVec.shiftLeft_xor_distrib,
    topBit_shiftLeft_one, BitVec.xor_zero]

theorem byteStep_zero_poly (reg : BitVec w) (d : Byte) : byteStep 0#w reg d = reg <<< 8 := by
  simp only [byteStep, List.foldl, bitStep_zero_poly, ← BitVec.shiftLeft_add]

/-- With a zero polynomial every byte shifts by eight places, whatever it is (R133). -/
theorem feed_zero_poly (f : Bool) (reg : BitVec w) (bytes : List Byte) :
    feed 0#w f reg bytes = reg <<< (8 * bytes.length) := by
  induction bytes generalizing reg with
  | nil => simp
  | cons b bs ih =>
    rw [feed_cons, byteStep_zero_poly, ih, ← BitVec.shiftLeft_add, List.length_cons]
    congr 1
    omega

@[simp] theorem revIf_zero (f : Bool) : revIf f 0#w = 0#w := by
  simpa using revIf_xor f 0#w 0#w

theorem crcCompute_zero_poly {c : CfgRegs} (h : c.polyW = 0#c.width) (bytes : List Byte) :
    crcCompute c bytes =
      (revIf c.outRefl (c.initW <<< (8 * bytes.length)) ^^^ c.xoroutW).toNat := by
  rw [crcCompute, CfgRegs.crcRegister, h, feed_zero_poly]
  rfl

/-- Settles O19: every byte shifts by eight places, and W places leave nothing. -/
theorem zeroPolynomialSeesOnlyTheLength : Obligations.ZeroPolynomialSeesOnlyTheLength := by
  intro c _ (hp : c.polyW = 0#c.width)
  refine ⟨fun reg b => ?_, crcCompute_zero_poly hp, fun bytes hlen => ?_, fun _ => rfl⟩
  · rw [hp, bitStep_zero_poly]
  · rw [crcCompute_zero_poly hp, BitVec.shiftLeft_eq_zero hlen, revIf_zero, BitVec.zero_xor]

/-! ### The table form -/

/-- The bits of an octet that stands in the top byte of a register. -/
theorem getLsbD_topByte (d : Byte) (hw : 8 ≤ w) {i : Nat} (hi : w - 8 ≤ i) :
    (d.setWidth w <<< (w - 8)).getLsbD i = d.getLsbD (i - (w - 8)) := by
  rw [BitVec.getLsbD_shiftLeft, BitVec.getLsbD_setWidth]
  by_cases hiw : i < w
  · have hlt : i - (w - 8) < w := by omega
    simp [hiw, hlt, Nat.not_lt.mpr hi]
  · simp [hiw, BitVec.getLsbD_of_ge d (i - (w - 8)) (by omega)]

/-- The low bits of a register shift as they are, so eight shifts split into a plain shift and the
eight shifts of the top byte (R134). -/
theorem shiftSteps_split_topByte (p r : BitVec w) (hw : 8 ≤ w) :
    (shiftStep p)^[8] r =
      r <<< 8 ^^^ (shiftStep p)^[8] ((r.extractLsb' (w - 8) 8).setWidth w <<< (w - 8)) := by
  set top := (r.extractLsb' (w - 8) 8).setWidth w <<< (w - 8) with htop
  have hlow : ∀ i, w - 8 ≤ i → (r ^^^ top).getLsbD i = false := by
    intro i hi
    rw [BitVec.getLsbD_xor, htop, getLsbD_topByte _ hw hi, BitVec.getLsbD_extractLsb',
      Nat.add_sub_cancel' hi]
    by_cases hiw : i < w
    · have hlt : i - (w - 8) < 8 := by omega
      simp [hlt]
    · simp [BitVec.getLsbD_of_ge r i (by omega)]
  have hout : top <<< 8 = 0#w := by
    rw [htop, ← BitVec.shiftLeft_add]
    exact BitVec.shiftLeft_eq_zero (by omega)
  calc (shiftStep p)^[8] r
      = (shiftStep p)^[8] ((r ^^^ top) ^^^ top) := by rw [xor_cancel_right]
    _ = (r ^^^ top) <<< 8 ^^^ (shiftStep p)^[8] top := by
      rw [shiftSteps_xor, shiftSteps_of_low p _ 8 hlow]
    _ = r <<< 8 ^^^ (shiftStep p)^[8] top := by
      rw [BitVec.shiftLeft_xor_distrib, hout, BitVec.xor_zero]

/-- Settles O21: the octet and the top byte of the register meet in the table's index. -/
theorem tableFormEqualsByteStep : Obligations.TableFormEqualsByteStep := by
  intro w poly reg d hw
  rw [tableByteStep, crcTable, byteStep_zero_byte, byteStep_eq_shiftSteps _ _ _ hw,
    BitVec.setWidth_xor, BitVec.shiftLeft_xor_distrib, shiftSteps_xor, shiftSteps_xor,
    shiftSteps_split_topByte poly reg hw, BitVec.xor_assoc]

/-! ### The right-shifting form -/

/-- Reversal takes a reversed octet in the top byte to the octet in the low byte (R135). -/
theorem rev_topByte (b : Byte) (hw : 8 ≤ w) :
    rev ((rev b).setWidth w <<< (w - 8)) = b.setWidth w := by
  apply BitVec.eq_of_getLsbD_eq
  intro i hi
  rw [getLsbD_rev, BitVec.getMsbD_eq_getLsbD, BitVec.getLsbD_setWidth]
  by_cases h8 : i < 8
  · have hpos : w - 1 - i - (w - 8) = 7 - i := by omega
    have hbyte : 7 - i < 8 := by omega
    have hidx : 8 - 1 - (7 - i) = i := by omega
    rw [getLsbD_topByte _ hw (by omega), hpos, getLsbD_rev, BitVec.getMsbD_eq_getLsbD, hidx]
    simp [hi, hbyte]
  · have hlow : w - 1 - i < w - 8 := by omega
    simp [hlow, BitVec.getLsbD_of_ge b i (by omega)]

/-- A byte of the right-shifting register is the byte of the engine, reversed (R135). -/
theorem rightByteStep_rev (p r : BitVec w) (b : Byte) (hw : 8 ≤ w) :
    rightByteStep (rev p) (rev r) b = rev (byteStep p r (rev b)) := by
  have hsteps : ∀ x, rev ((shiftStep p)^[8] x) = (rightBitStep (rev p))^[8] (rev x) :=
    Function.Semiconj.iterate_right (rev_shiftStep p) 8
  rw [byteStep_eq_shiftSteps _ _ _ hw, hsteps, rev_xor, rev_topByte b hw]
  rfl

/-- Settles O22: byte by byte, the right-shifting register is the engine's register reversed. -/
theorem rightShiftFormEqualsEngine : Obligations.RightShiftFormEqualsEngine := by
  intro c bytes hw hin hout
  have hreg : bytes.foldl (rightByteStep (rev c.polyW)) (rev c.initW) =
      rev (c.crcRegister bytes) := by
    rw [CfgRegs.crcRegister, feed, hin]
    exact List.foldl_hom rev fun r b => rightByteStep_rev c.polyW r b hw
  refine ⟨hreg, ?_⟩
  rw [crcRightShift, hreg, crcCompute, CfgRegs.finish, hout]
  rfl

/-! ### Affinity -/

theorem CfgRegs.finish_xor_xor (c : CfgRegs) (x y z : BitVec c.width) :
    c.finish (x ^^^ y ^^^ z) = c.finish x ^^^ c.finish y ^^^ c.finish z := by
  simp only [CfgRegs.finish, revIf_xor]
  ext i hi
  simp only [BitVec.getElem_xor]
  cases c.xoroutW[i] <;> simp

theorem zipWith_xor_zeros (bs : List Byte) :
    List.zipWith (· ^^^ ·) bs (List.replicate bs.length 0) = bs := by
  induction bs with
  | nil => rfl
  | cons b bs ih =>
    rw [List.length_cons, List.replicate_succ, List.zipWith_cons_cons, ih]
    exact congrArg (· :: bs) BitVec.xor_zero

/-- A change of the register passes through later bytes by shifts alone (R136). -/
theorem feed_xor_reg (p x y : BitVec w) (f : Bool) (bs : List Byte) :
    feed p f (x ^^^ y) bs = feed p f x bs ^^^ (shiftStep p)^[8 * bs.length] y := by
  have h := feed_xor p x y f bs (List.replicate bs.length 0) (by simp)
  rwa [zipWith_xor_zeros, feed_zeros] at h

/-- Settles O23: the two sequences from INIT differ by their exclusive OR from 0, to which the zeros
add INIT again. -/
theorem crcIsAffine : Obligations.CrcIsAffine := by
  intro c a b hlen
  have hreg : c.crcRegister (List.zipWith (· ^^^ ·) a b) =
      c.crcRegister a ^^^ c.crcRegister b ^^^ c.crcRegister (List.replicate a.length 0) := by
    simp only [CfgRegs.crcRegister]
    rw [← feed_xor _ _ _ _ _ _ hlen, BitVec.xor_self, feed_zeros]
    have hl : (List.zipWith (· ^^^ ·) a b).length = a.length := by simp [hlen]
    rw [← hl, ← feed_xor_reg, BitVec.zero_xor]
  rw [crcCompute, hreg, c.finish_xor_xor, BitVec.toNat_xor, BitVec.toNat_xor]
  rfl

/-! ### A flipped bit -/

/-- A register that is not 0 and is a multiple of x^m. -/
def NonzeroMultiple (m : Nat) (r : BitVec w) : Prop := r ≠ 0#w ∧ ∀ i < m, r.getLsbD i = false

/-- A polynomial other than 0 is a multiple of x^m, where bit m is its lowest set bit. -/
theorem exists_lowest_set_bit {p : BitVec w} (hp : p ≠ 0#w) :
    ∃ m, p.getLsbD m = true ∧ NonzeroMultiple m p := by
  have hex : ∃ m, p.getLsbD m = true := by
    by_contra hno
    exact hp (BitVec.eq_of_getLsbD_eq fun i _ => by simpa using not_exists.mp hno i)
  exact ⟨Nat.find hex, Nat.find_spec hex, hp, fun i hi => by simpa using Nat.find_min hex hi⟩

theorem shiftStep_of_msb_false {p r : BitVec w} (h : r.msb = false) : shiftStep p r = r <<< 1 :=
  if_neg (by simp [h])

theorem shiftStep_of_msb_true {p r : BitVec w} (h : r.msb = true) :
    shiftStep p r = r <<< 1 ^^^ p := if_pos h

/-- A shift by one place loses the top bit alone. -/
theorem eq_zero_of_shiftLeft_one {r : BitVec w} (hmsb : r.msb = false) (h : r <<< 1 = 0#w) :
    r = 0#w := by
  apply BitVec.eq_of_getLsbD_eq
  intro i hi
  rw [BitVec.getLsbD_zero]
  by_cases hlast : i = w - 1
  · rw [hlast, ← BitVec.msb_eq_getLsbD_last, hmsb]
  · have hnext : (r <<< 1).getLsbD (i + 1) = r.getLsbD i := by
      have hlt : i + 1 < w := by omega
      rw [BitVec.getLsbD_shiftLeft]
      simp [hlt]
    rw [← hnext, h, BitVec.getLsbD_zero]

/-- A multiple of x^m, shifted by one place, has no set bit up to bit m. -/
theorem NonzeroMultiple.getLsbD_shiftLeft_one {r : BitVec w} {m i : Nat} (h : NonzeroMultiple m r)
    (hi : i ≤ m) : (r <<< 1).getLsbD i = false := by
  obtain ⟨-, hlow⟩ := h
  rw [BitVec.getLsbD_shiftLeft]
  by_cases h0 : i < 1
  · simp [h0]
  · simp [hlow (i - 1) (by omega)]

/-- Multiplication by x keeps a nonzero multiple of x^m: a top bit that is shifted out is replaced
by the polynomial, whose bit m nothing else reaches (R137). -/
theorem NonzeroMultiple.shiftStep {p r : BitVec w} {m : Nat} (hm : p.getLsbD m = true)
    (hp : NonzeroMultiple m p) (hr : NonzeroMultiple m r) :
    NonzeroMultiple m (Machine.shiftStep p r) := by
  obtain ⟨-, hplow⟩ := hp
  have ⟨hne, _⟩ := hr
  cases hmsb : r.msb with
  | false =>
    rw [shiftStep_of_msb_false hmsb]
    exact ⟨fun hzero => hne (eq_zero_of_shiftLeft_one hmsb hzero),
      fun i hi => hr.getLsbD_shiftLeft_one hi.le⟩
  | true =>
    rw [shiftStep_of_msb_true hmsb]
    refine ⟨fun hzero => ?_, fun i hi => ?_⟩
    · have hbit : (r <<< 1 ^^^ p).getLsbD m = true := by
        rw [BitVec.getLsbD_xor, hr.getLsbD_shiftLeft_one le_rfl, hm, Bool.false_xor]
      rw [hzero, BitVec.getLsbD_zero] at hbit
      exact Bool.false_ne_true hbit
    · rw [BitVec.getLsbD_xor, hr.getLsbD_shiftLeft_one hi.le, hplow i hi, Bool.xor_false]

/-- Along the shifts, a nonzero multiple of x^m stays one (R137). -/
theorem NonzeroMultiple.shiftSteps {p r : BitVec w} {m : Nat} (hm : p.getLsbD m = true)
    (hp : NonzeroMultiple m p) (hr : NonzeroMultiple m r) (k : Nat) :
    NonzeroMultiple m ((Machine.shiftStep p)^[k] r) := by
  induction k with
  | zero => exact hr
  | succ k ih => rw [Function.iterate_succ_apply']; exact hp.shiftStep hm ih

/-- The polynomial times a power of x is 0 modulo the generator only for the polynomial 0 (R137). -/
theorem shiftSteps_poly_eq_zero_iff (p : BitVec w) (k : Nat) :
    (shiftStep p)^[k] p = 0#w ↔ p = 0#w := by
  constructor
  · intro hzero
    by_contra hp
    obtain ⟨m, hm, hmul⟩ := exists_lowest_set_bit hp
    obtain ⟨hne, -⟩ := hmul.shiftSteps hm hmul k
    exact hne hzero
  · rintro rfl
    rw [shiftSteps_of_low _ _ k fun _ _ => BitVec.getLsbD_zero, BitVec.zero_shiftLeft]

/-- A single data bit into an empty register leaves the polynomial (R124). -/
theorem shiftStep_topBit (p : BitVec w) (hw : 1 ≤ w) : shiftStep p (topBit w true) = p := by
  have hmsb : (topBit w true).msb = true := by
    rw [BitVec.msb_eq_getLsbD_last]
    change (topBit w true).toNat.testBit (w - 1) = true
    simp [toNat_topBit hw]
  rw [shiftStep_of_msb_true hmsb, topBit_shiftLeft_one, BitVec.zero_xor]

/-- An octet with one set bit leaves the polynomial times a power of x (R137). -/
theorem byteStep_single_bit (p : BitVec w) (hw : 8 ≤ w) {j : Nat} (hj : j < 8) :
    byteStep p 0#w (1#8 <<< j) = (shiftStep p)^[j] p := by
  have hbit : (1#8 <<< j).setWidth w <<< (w - 8) =
      (BitVec.ofBool true).setWidth w <<< (w - 1 - (7 - j)) := by
    have hone : (1#8 <<< j).setWidth w = (BitVec.ofBool true).setWidth w <<< j := by
      apply BitVec.eq_of_toNat_eq
      have hbyte : 2 ^ j < 256 := Nat.pow_lt_pow_right (by decide) hj
      have hreg : 1 < 2 ^ w := Nat.one_lt_two_pow (by omega)
      simp [Nat.shiftLeft_eq, Nat.mod_eq_of_lt hbyte, Nat.mod_eq_of_lt hreg]
    rw [hone, ← BitVec.shiftLeft_add]
    congr 1
    omega
  have hpow : (shiftStep p)^[8] = (shiftStep p)^[j] ∘ shiftStep p ∘ (shiftStep p)^[7 - j] := by
    rw [← Function.iterate_succ', ← Function.iterate_add]; congr 1; omega
  rw [byteStep_eq_shiftSteps p _ _ hw, hbit, hpow, Function.comp_apply, Function.comp_apply,
    BitVec.zero_xor, ← topBit_eq_shiftSteps p true (7 - j) (by omega),
    shiftStep_topBit p (by omega)]

theorem revIf_single_bit (f : Bool) {j : Nat} (hj : j < 8) :
    ∃ i < 8, revIf f (1#8 <<< j) = 1#8 <<< i := by
  cases f
  · exact ⟨j, hj, rfl⟩
  · exact ⟨7 - j, by omega, by revert j; decide⟩

/-- Flipping one bit changes the register by the polynomial times a power of x (R137). -/
theorem feed_flip (p r : BitVec w) (f : Bool) (hw : 8 ≤ w) {j : Nat} (hj : j < 8)
    (as bs : List Byte) (b : Byte) :
    ∃ n, feed p f r (as ++ (b ^^^ 1#8 <<< j) :: bs) =
      feed p f r (as ++ b :: bs) ^^^ (shiftStep p)^[n] p := by
  obtain ⟨i, hi, hrev⟩ := revIf_single_bit f hj
  have hstep : ∀ q, byteStep p q (revIf f (b ^^^ 1#8 <<< j)) =
      byteStep p q (revIf f b) ^^^ (shiftStep p)^[i] p := by
    intro q
    rw [revIf_xor, hrev, ← byteStep_single_bit p hw hi, ← byteStep_xor, BitVec.xor_zero]
  refine ⟨8 * bs.length + i, ?_⟩
  rw [feed_append, feed_append, feed_cons, feed_cons, hstep, feed_xor_reg,
    ← Function.iterate_add_apply]

theorem CfgRegs.finish_injective {c : CfgRegs} {x y : BitVec c.width}
    (h : c.finish x = c.finish y) : x = y :=
  revIf_injective ((BitVec.xor_left_inj _).mp h)

/-- Two inputs have the same CRC exactly when they leave the same register. -/
theorem crcCompute_eq_iff (c : CfgRegs) (as bs : List Byte) :
    crcCompute c as = crcCompute c bs ↔ c.crcRegister as = c.crcRegister bs :=
  ⟨fun h => CfgRegs.finish_injective (BitVec.eq_of_toNat_eq h),
    congrArg fun reg => (c.finish reg).toNat⟩

/-- Flipping bit j of the octet at place k changes the engine's register likewise (R137). -/
theorem CfgRegs.crcRegister_flip {c : CfgRegs} {bytes : List Byte} {k j : Nat} (hw : 8 ≤ c.width)
    (hk : k < bytes.length) (hj : j < 8) :
    ∃ n, c.crcRegister (bytes.modify k (fun b => b ^^^ 1#8 <<< j)) =
      c.crcRegister bytes ^^^ (shiftStep c.polyW)^[n] c.polyW := by
  have hsplit : bytes = bytes.take k ++ bytes[k] :: bytes.drop (k + 1) := by simp
  obtain ⟨n, hn⟩ := feed_flip c.polyW c.initW c.inRefl hw hj (bytes.take k) (bytes.drop (k + 1))
    bytes[k]
  rw [← hsplit] at hn
  refine ⟨n, ?_⟩
  rw [List.modify_eq_take_cons_drop hk]
  exact hn

/-- Settles O24: the flip changes the register by the polynomial times a power of x, which is 0
exactly when the polynomial is 0. -/
theorem singleBitFlipChangesCrc : Obligations.SingleBitFlipChangesCrc := by
  intro c bytes k j hv hk hj
  obtain ⟨-, hw, -⟩ := width_of_valid hv
  obtain ⟨n, hn⟩ := CfgRegs.crcRegister_flip hw hk hj
  rw [Ne, crcCompute_eq_iff, hn, xor_left_eq_self_iff]
  exact not_congr (shiftSteps_poly_eq_zero_iff _ n)

end Sys2Proof.Machine
end

section
/-! PROOFS. The frame validator (R150 to R170): what SUBMIT does with the message at the head of IN,
which parts of a message decide its verdict, and that no step reads a meta value. -/

namespace Sys2Proof.Machine

/-! ### Metadata is opaque -/

/-- A verdict with the metadata of its message renamed. -/
def Verdict.mapMeta (f : Meta → Meta) : Verdict → Verdict
  | .accepted fwd => .accepted (Message.mapMeta f fwd)
  | .rejected orig => .rejected (Message.mapMeta f orig)

/-- The check passes the meta value on unread (R160). -/
theorem checkPdu_mapMeta (f : Meta → Meta) (c : CfgRegs) (m : Message) :
    checkPdu c (Message.mapMeta f m) = (checkPdu c m).mapMeta f := by
  simp only [checkPdu, Message.mapMeta, apply_ite (Verdict.mapMeta f)]
  rfl

theorem State.mapMeta_inQ (f : Meta → Meta) (s : State) :
    (s.mapMeta f).inQ = s.inQ.map (Message.mapMeta f) := rfl

theorem State.mapMeta_moves (f : Meta → Meta) (s : State) :
    (s.mapMeta f).moves = s.moves.map (Move.mapMeta f) := rfl

theorem State.takeIn_route_mapMeta (f : Meta → Meta) (s : State) (v : Verdict) :
    (s.mapMeta f).takeIn.route (v.mapMeta f) = (s.takeIn.route v).mapMeta f := by
  cases v <;> simp [mapMeta, takeIn, emitOk, emitFail, Verdict.mapMeta]

theorem State.cfgWrite_mapMeta (f : Meta → Meta) (s : State) (r : CfgReg) (v : Word) :
    (s.mapMeta f).cfgWrite r v = (s.cfgWrite r v).mapMeta f := by
  by_cases hl : s.lifecycle = .unconfigured
  · rw [cfgWrite_of_unconfigured _ _ _ hl, cfgWrite_of_unconfigured (s.mapMeta f) _ _ hl]
    rfl
  · rw [cfgWrite_of_configured _ _ _ hl, cfgWrite_of_configured (s.mapMeta f) _ _ hl]

theorem checkHead_waits {s : State} (h : s.lifecycle ≠ .ready ∨ s.inQ = []) :
    checkHead s = .next s := by
  rcases checkHead_cases s with ⟨_, e⟩ | ⟨hl, m, q, hq, _⟩
  · exact e
  · rw [hq] at h
    exact absurd hl (h.resolve_right (List.cons_ne_nil m q))

theorem checkHead_enabled {s : State} {m : Message} {q : List Message}
    (hl : s.lifecycle = .ready) (hq : s.inQ = m :: q) :
    checkHead s = .next (s.takeIn.route (checkPdu s.cfg m)) := by
  rw [checkHead, hq]
  exact execSubmit_enabled hl hq

theorem checkHead_mapMeta (f : Meta → Meta) (s : State) :
    checkHead (s.mapMeta f) = mapNext (State.mapMeta f) (checkHead s) := by
  rcases checkHead_cases s with ⟨hw, e⟩ | ⟨hl, m, q, hq, e⟩
  · have hw' : (s.mapMeta f).lifecycle ≠ .ready ∨ (s.mapMeta f).inQ = [] :=
      hw.imp_right fun hq => by rw [State.mapMeta_inQ, hq, List.map_nil]
    rw [e, checkHead_waits hw', mapNext]
  · have hq' : (s.mapMeta f).inQ = Message.mapMeta f m :: q.map (Message.mapMeta f) := by
      rw [State.mapMeta_inQ, hq, List.map_cons]
    rw [e, checkHead_enabled (s := s.mapMeta f) hl hq', checkPdu_mapMeta, mapNext]
    exact congrArg _ (s.takeIn_route_mapMeta f _)

theorem exec_construct_of_configured {s : State} (h : s.lifecycle ≠ .unconfigured) :
    exec .construct s = .next s := if_neg h

/-- A REG-port operation carries no metadata and reads none (R92). -/
theorem issueReg_mapMeta (f : Meta → Meta) (h : Header) (d : Word) (s : State) :
    issueReg h d (s.mapMeta f) = mapNext (State.mapMeta f) (issueReg h d s) := by
  cases hd : decodeReg h d with
  | reject r => rw [issueReg_reject hd, issueReg_reject hd, mapNext]
  | instr i =>
    rw [issueReg_instr hd, issueReg_instr hd]
    cases i with
    | rdNumBits | rdPoly | rdInit | rdXorout | rdFlags | rdSkip | rdCmd | rdStatus => rfl
    | wrNumBits v | wrPoly v | wrInit v | wrXorout v | wrFlags v | wrSkip v =>
      exact congrArg Host.Outcome.next (s.cfgWrite_mapMeta f _ v)
    | wrStatus v => rfl
    | construct =>
      by_cases hl : s.lifecycle = .unconfigured
      · rw [exec_construct_of_unconfigured hl,
          exec_construct_of_unconfigured (s := s.mapMeta f) hl]
        rfl
      · rw [exec_construct_of_configured hl,
          exec_construct_of_configured (s := s.mapMeta f) hl, mapNext]
    | submit m => exact absurd hd (decodeReg_ne_submit h d m)

/-- The length of a message is not its metadata (R215). -/
theorem offerPdu_mapMeta (f : Meta → Meta) (m : Message) (s : State) :
    offerPdu (Message.mapMeta f m) (s.mapMeta f) = mapNext (State.mapMeta f) (offerPdu m s) := by
  rcases offerPdu_cases m s with ⟨hm, e⟩ | ⟨hm, e⟩ <;>
    rcases offerPdu_cases (Message.mapMeta f m) (s.mapMeta f) with ⟨hm', e'⟩ | ⟨hm', e'⟩
  · rw [e, e']
    simp [mapNext, State.mapMeta, State.appendIn]
  · exact absurd hm hm'.not_ge
  · exact absurd hm' hm.not_ge
  · rw [e, e', mapNext]

theorem runMove_mapMeta (f : Meta → Meta) (m : Move) (s : State) :
    runMove (m.mapMeta f) (s.mapMeta f) = mapNext (State.mapMeta f) (runMove m s) := by
  cases m with
  | reg h d => exact issueReg_mapMeta f h d s
  | append msg => exact offerPdu_mapMeta f msg s
  | check => exact checkHead_mapMeta f s
  | removeOk | removeFail => simp [runMove, Move.mapMeta, mapNext, State.mapMeta,
      State.removeOk, State.removeFail]
  | reset => rfl

/-- Settles O57: each agent's move commutes with the renaming, and so does the idle check. -/
theorem metadataIsOpaque : Obligations.MetadataIsOpaque := by
  intro f s
  cases hm : s.moves with
  | nil =>
    have hm' : (s.mapMeta f).moves = [] := by rw [State.mapMeta_moves, hm, List.map_nil]
    rw [step_idle hm, step_idle hm', checkHead_mapMeta]
  | cons m rest =>
    have hm' : (s.mapMeta f).moves = m.mapMeta f :: rest.map (Move.mapMeta f) := by
      rw [State.mapMeta_moves, hm, List.map_cons]
    rw [step_move hm, step_move hm']
    exact runMove_mapMeta f m (s.withMoves rest)

/-- SUBMIT names the message at the head of IN by its bytes (log entry 8). -/
theorem execSubmit_congr {m n : Message} (h : m.bytes = n.bytes) (s : State) :
    execSubmit m s = execSubmit n s := by
  simp only [execSubmit, h]

/-- Settles O59: the two operands have the same bytes. -/
theorem submitIgnoresOperandMeta : Obligations.SubmitIgnoresOperandMeta :=
  fun _ _ s => execSubmit_congr rfl s

/-! ### The verdict and the channel -/

/-- In READY, an accepted head of IN is forwarded to OK (R158). -/
theorem exec_submit_accepted {s : State} {m fwd : Message} {q : List Message}
    (hl : s.lifecycle = .ready) (hq : s.inQ = m :: q) (hc : checkPdu s.cfg m = .accepted fwd) :
    exec (.submit m) s = .next { s with inQ := q, okQ := s.okQ ++ [fwd] } := by
  have he : exec (.submit m) s = .next (s.takeIn.route (checkPdu s.cfg m)) :=
    execSubmit_enabled hl hq
  rw [he, hc, State.route_accepted, State.emitOk, State.takeIn, hq, List.tail_cons]

/-- Settles O25: the length test rejects a short message, and a rejected one goes to FAIL. -/
theorem shortPduGoesToFailUnmodified : Obligations.ShortPduGoesToFailUnmodified :=
  fun _ _ _ hl hq hshort => exec_submit_rejected hl hq (checkPdu_of_short hshort)

/-- The bytes forwarded on Accept: those before the trailer, or all of them (R157). -/
theorem forwarded_eq (c : CfgRegs) (p : List Byte) :
    c.forwarded p = if c.discardCrc then p.take (p.length - c.trailerLen) else p := by
  rw [CfgRegs.forwarded, slice_eq, List.drop_zero, Nat.sub_zero]

theorem forwarded_prefix (c : CfgRegs) (p : List Byte) : c.forwarded p <+: p := by
  rw [forwarded_eq]
  split
  · exact List.take_prefix _ _
  · exact List.prefix_rfl

/-- A message that passes the length test is judged by the two numbers (R156). -/
theorem checkPdu_of_long {c : CfgRegs} {m : Message}
    (h : c.skipLen + c.trailerLen ≤ m.bytes.length) :
    checkPdu c m = if c.expected m.bytes = c.stored m.bytes then
      .accepted { bytes := c.forwarded m.bytes, info := m.info } else .rejected m := by
  have hlong : c.tooShort m.bytes = false := decide_eq_false h.not_gt
  rw [checkPdu, hlong, if_neg Bool.false_ne_true]

/-- Settles O26: the region, the trailer and the forwarded bytes are the written-out ones, and the
comparison of the two numbers decides. -/
theorem trailerDecidesTheChannel : Obligations.TrailerDecidesTheChannel := by
  intro s m rest hl hq L skip tl hlong expected trailer stored fwd
  have hexpected : s.cfg.expected m.bytes = expected := congrArg _ (region_eq s.cfg m.bytes)
  have hstored : s.cfg.stored m.bytes = stored := congrArg s.cfg.readTrailer (trailer_eq s.cfg _)
  have hfwd : s.cfg.forwarded m.bytes = fwd := forwarded_eq s.cfg m.bytes
  have hcheck := checkPdu_of_long (c := s.cfg) (m := m) hlong
  rw [hexpected, hstored, hfwd] at hcheck
  exact ⟨fun he => exec_submit_accepted hl hq (hcheck.trans (if_pos he)),
    fun hne => exec_submit_rejected hl hq (hcheck.trans (if_neg hne))⟩

/-- Settles O27: the region is empty, and the CRC of no bytes is the reflected INIT with XOROUT. -/
theorem emptyRegionIsCheckedAgainstEmptyCrc : Obligations.EmptyRegionIsCheckedAgainstEmptyCrc := by
  intro s m rest hl hq hlen trailer stored empty fwd
  have hsub : m.bytes.length - s.cfg.numBits.toNat / 8 = s.cfg.skip.toNat := by omega
  have hregion : m.bytes.length - s.cfg.skip.toNat - s.cfg.numBits.toNat / 8 = 0 := by omega
  have hempty : crcCompute s.cfg [] = empty := emptyInputReflectsInit s.cfg
  obtain ⟨haccept, hreject⟩ := trailerDecidesTheChannel s m rest hl hq hlen.ge
  rw [hregion, List.take_zero, hempty, hsub] at haccept hreject
  exact ⟨fun he => haccept he.symm, fun hne => hreject (Ne.symm hne)⟩

/-- Settles O30: one case per verdict. -/
theorem checkRoutesToExactlyOneChannel : Obligations.CheckRoutesToExactlyOneChannel := by
  intro s m rest hl hq
  cases hv : checkPdu s.cfg m with
  | accepted fwd =>
    have hfwd := checkPdu_forwards hv
    refine ⟨fwd, by rw [hfwd], ?_, .inl ⟨rfl, exec_submit_accepted hl hq hv⟩⟩
    rw [hfwd]
    exact forwarded_prefix s.cfg m.bytes
  | rejected orig =>
    obtain rfl := checkPdu_rejected_eq hv
    exact ⟨orig, rfl, List.prefix_rfl, .inr ⟨rfl, rfl, exec_submit_rejected hl hq hv⟩⟩

/-! ### The trailer and its byte order -/

/-- A number of TL bytes, written as a trailer, reads back (R14, R64). -/
theorem readTrailer_writeTrailer (c : CfgRegs) {v : Nat} (hv : v < 256 ^ c.trailerLen) :
    c.readTrailer (c.writeTrailer v) = v := by
  unfold CfgRegs.readTrailer CfgRegs.writeTrailer
  split
  · exact le_leBytes hv
  · exact be_beBytes hv

theorem readTrailer_writeTrailer_crc {c : CfgRegs} (hv : validate c = .none) (bytes : List Byte) :
    c.readTrailer (c.writeTrailer (crcCompute c bytes)) = crcCompute c bytes :=
  readTrailer_writeTrailer c (trailer_values hv ▸ crcCompute_lt c bytes)

/-- Two trailers of one length that read as the same number are the same bytes (R14). -/
theorem readTrailer_injective (c : CfgRegs) {t u : List Byte} (hlen : t.length = u.length)
    (h : c.readTrailer t = c.readTrailer u) : t = u := by
  unfold CfgRegs.readTrailer at h
  split at h
  · rw [← leBytes_le t, ← leBytes_le u, hlen, h]
  · rw [← beBytes_be t, ← beBytes_be u, hlen, h]

/-- Settles O32: the trailer reads back as the CRC that the check expects. -/
theorem roundTripIsAccepted : Obligations.RoundTripIsAccepted := by
  intro s p info rest hv hl t m hq
  have hcheck := checkPdu_append s.cfg p t info (writeTrailer_length s.cfg _)
  refine ⟨fun hp => exec_submit_accepted hl hq ?_, fun hp => exec_submit_rejected hl hq ?_⟩
  · rw [hcheck, if_neg hp.not_gt, if_pos (readTrailer_writeTrailer_crc hv _).symm]
  · rw [hcheck, if_pos hp]

/-- Settles O36: the reversed trailer reads as the expected CRC only if it is the right trailer. -/
theorem swappedTrailerIsRejected : Obligations.SwappedTrailerIsRejected := by
  intro c p info hv hp t m
  have hlen : t.length = c.trailerLen := by rw [List.length_reverse, writeTrailer_length]
  have hreads : c.readTrailer t.reverse = crcCompute c (p.drop c.skipLen) := by
    rw [List.reverse_reverse, readTrailer_writeTrailer_crc hv]
  have hiff : c.readTrailer t.reverse = c.readTrailer t ↔ t.reverse = t :=
    ⟨readTrailer_injective c List.length_reverse, congrArg c.readTrailer⟩
  rw [checkPdu_append c p t info hlen, if_neg hp.not_gt, ← hreads, Ne, ← hiff]
  split
  · next heq => exact iff_of_false nofun (not_not.mpr heq)
  · next hne => exact iff_of_true rfl hne

/-- One byte, or none, reads the same in both orders (R169). -/
theorem be_eq_le_of_length_le_one {t : List Byte} (h : t.length ≤ 1) : be t = le t := by
  rw [be_eq_le_reverse]
  match t, h with
  | [], _ => rfl
  | [b], _ => rfl

/-- The parts of the configuration through which a check sees it (R150). -/
theorem checkPdu_congr {c d : CfgRegs} {m : Message}
    (hshort : c.tooShort m.bytes = d.tooShort m.bytes)
    (hexpected : c.expected m.bytes = d.expected m.bytes)
    (hstored : c.stored m.bytes = d.stored m.bytes)
    (hfwd : c.forwarded m.bytes = d.forwarded m.bytes) : checkPdu c m = checkPdu d m := by
  simp only [checkPdu, hshort, hexpected, hstored, hfwd]

/-- The configuration with SWAP_ENDIAN, bit [2] of FLAGS, inverted (R28). -/
def CfgRegs.invertSwap (c : CfgRegs) : CfgRegs := { c with flags := c.flags ^^^ 4 }

theorem CfgRegs.invertSwap_flag (c : CfgRegs) {i : Nat} (hi : i ≠ 2) :
    c.invertSwap.flags.getLsbD i = c.flags.getLsbD i := by
  have hbit : BitVec.getLsbD (4 : Word) i = false := Nat.testBit_two_pow_of_ne hi.symm
  rw [invertSwap, BitVec.getLsbD_xor, hbit, Bool.xor_false]

/-- SWAP_ENDIAN is no input of the engine (R128). -/
theorem crcCompute_invertSwap (c : CfgRegs) (bytes : List Byte) :
    crcCompute c.invertSwap bytes = crcCompute c bytes :=
  engineReadsOnlyMaskedValues c.invertSwap c bytes rfl rfl rfl rfl
    (c.invertSwap_flag (by decide)) (c.invertSwap_flag (by decide))

theorem readTrailer_of_length_le_one (c : CfgRegs) {t : List Byte} (h : t.length ≤ 1) :
    c.readTrailer t = le t := by
  rw [CfgRegs.readTrailer, be_eq_le_of_length_le_one h, ite_self]

/-- Settles O35: the trailer has at most one byte, so both orders read the same number, and nothing
else of the check sees SWAP_ENDIAN. -/
theorem byteOrderIrrelevantForOneByte : Obligations.ByteOrderIrrelevantForOneByte := by
  intro c m hw
  have htl : c.trailerLen = 1 := by rw [CfgRegs.trailerLen, CfgRegs.width, hw]; rfl
  have hlen : (c.trailer m.bytes).length ≤ 1 := by
    rw [trailer_eq, htl, List.length_drop]
    omega
  refine ⟨htl, fun b => be_eq_le_of_length_le_one le_rfl, ?_⟩
  refine checkPdu_congr (c := c.invertSwap) rfl (crcCompute_invertSwap c _) ?_ ?_
  · exact (readTrailer_of_length_le_one c.invertSwap hlen).trans
      (readTrailer_of_length_le_one c hlen).symm
  · have hdiscard : c.invertSwap.discardCrc = c.discardCrc := c.invertSwap_flag (by decide)
    rw [forwarded_eq, forwarded_eq, hdiscard]
    rfl

/-! ### Which bytes decide -/

theorem region_congr {c : CfgRegs} {p q : List Byte} (hlen : p.length = q.length)
    (hdrop : p.drop c.skipLen = q.drop c.skipLen) : c.region p = c.region q := by
  rw [region_eq, region_eq, hlen, hdrop]

/-- The trailer of a message that passes the length test stands behind the header (R153, R155). -/
theorem trailer_congr {c : CfgRegs} {p q : List Byte} (hlen : p.length = q.length)
    (hdrop : p.drop c.skipLen = q.drop c.skipLen) (hlong : c.skipLen + c.trailerLen ≤ p.length) :
    c.trailer p = c.trailer q := by
  have hsplit : p.length - c.trailerLen = c.skipLen + (p.length - c.trailerLen - c.skipLen) := by
    omega
  rw [trailer_eq, trailer_eq, ← hlen, hsplit, ← List.drop_drop, hdrop, List.drop_drop]

/-- The bytes from index SKIP on decide whether a message is accepted (R165). -/
theorem checkPdu_accepts_congr {c : CfgRegs} {m n : Message}
    (hlen : m.bytes.length = n.bytes.length)
    (hdrop : m.bytes.drop c.skipLen = n.bytes.drop c.skipLen) :
    (∃ f, checkPdu c m = .accepted f) ↔ ∃ f, checkPdu c n = .accepted f := by
  rw [checkPdu_accepts_iff, checkPdu_accepts_iff, ← hlen, region_congr hlen hdrop]
  exact and_congr_right fun hlong => by rw [trailer_congr hlen hdrop hlong]

theorem forwarded_take_header {c : CfgRegs} {p : List Byte}
    (hlong : c.skipLen + c.trailerLen ≤ p.length) :
    (c.forwarded p).take c.skipLen = p.take c.skipLen := by
  rw [forwarded_eq]
  split
  · rw [List.take_take, Nat.min_eq_left (by omega)]
  · rfl

theorem forwarded_drop_congr {c : CfgRegs} {p q : List Byte} (hlen : p.length = q.length)
    (hdrop : p.drop c.skipLen = q.drop c.skipLen) :
    (c.forwarded p).drop c.skipLen = (c.forwarded q).drop c.skipLen := by
  rw [forwarded_eq, forwarded_eq]
  split
  · rw [List.drop_take, List.drop_take, hlen, hdrop]
  · exact hdrop

/-- Settles O33: the verdict does not see the header, and a forwarded message keeps its own. -/
theorem headerBytesDoNotDecide : Obligations.HeaderBytesDoNotDecide := by
  intro c m n _ hlen hdrop
  have hiff := checkPdu_accepts_congr hlen hdrop
  by_cases hacc : ∃ f, checkPdu c m = .accepted f
  · have ⟨hlong, _⟩ := checkPdu_accepts_iff.mp hacc
    obtain ⟨g, hg⟩ := hiff.mp hacc
    obtain ⟨f, hf⟩ := hacc
    obtain rfl := checkPdu_forwards hf
    obtain rfl := checkPdu_forwards hg
    exact .inr ⟨_, _, hf, hg, forwarded_take_header hlong, forwarded_take_header (hlen ▸ hlong),
      forwarded_drop_congr hlen hdrop⟩
  · exact .inl ⟨checkPdu_rejects_iff.mpr hacc, checkPdu_rejects_iff.mpr (mt hiff.mpr hacc)⟩

/-! ### A flipped bit of an accepted message -/

/-- A change behind the header is a change of the region at the place less SKIP (R153). -/
theorem region_modify {c : CfgRegs} {p : List Byte} {k : Nat} (hk : c.skipLen ≤ k)
    (f : Byte → Byte) : c.region (p.modify k f) = (c.region p).modify (k - c.skipLen) f := by
  rw [region_eq, region_eq, List.length_modify, List.drop_modify_of_ge _ _ _ _ hk,
    List.take_modify]

/-- The region ends where the trailer begins (R153). -/
theorem region_length (c : CfgRegs) (p : List Byte) :
    (c.region p).length = p.length - c.skipLen - c.trailerLen := by
  rw [region_eq, List.length_take, List.length_drop]
  omega

theorem trailer_modify_before {c : CfgRegs} {p : List Byte} {k : Nat}
    (hk : k < p.length - c.trailerLen) (f : Byte → Byte) :
    c.trailer (p.modify k f) = c.trailer p := by
  rw [trailer_eq, trailer_eq, List.length_modify, List.drop_modify_of_lt _ _ _ _ hk]

theorem trailer_modify_in {c : CfgRegs} {p : List Byte} {k : Nat}
    (hk : p.length - c.trailerLen ≤ k) (f : Byte → Byte) :
    c.trailer (p.modify k f) = (c.trailer p).modify (k - (p.length - c.trailerLen)) f := by
  rw [trailer_eq, trailer_eq, List.length_modify, List.drop_modify_of_ge _ _ _ _ hk]

theorem modify_flip_ne {t : List Byte} {k j : Nat} (hk : k < t.length) (hj : j < 8) :
    t.modify k (fun b => b ^^^ 1#8 <<< j) ≠ t := by
  intro h
  have hbyte : t[k] ^^^ 1#8 <<< j = t[k] := by
    simpa [hk] using congrArg (fun l : List Byte => l[k]?) h
  have hflip : ∀ i < 8, 1#8 <<< i ≠ 0#8 := by decide
  exact hflip j hj (xor_left_eq_self_iff.mp hbyte)

/-- Settles O34: a flip in the header is not seen, one in the trailer changes the stored number
alone, and one in the region changes the expected number exactly when the polynomial is not 0. -/
theorem singleBitCorruptionIsDetected : Obligations.SingleBitCorruptionIsDetected := by
  intro c m fwd k j hv hm hk hj n
  have hlen : n.bytes.length = m.bytes.length := List.length_modify _ _ _
  obtain ⟨hlong, hcrc⟩ := checkPdu_accepts_iff.mp ⟨fwd, hm⟩
  have hreject : checkPdu c n = .rejected n ↔
      crcCompute c (c.region n.bytes) ≠ c.readTrailer (c.trailer n.bytes) := by
    rw [checkPdu_rejects_iff, checkPdu_accepts_iff, hlen, and_iff_right hlong]
  refine ⟨fun hheader => ?_, fun htrailer => ?_, fun hregion hbefore => ?_⟩
  · have hdrop : n.bytes.drop c.skipLen = m.bytes.drop c.skipLen :=
      List.drop_modify_of_lt _ _ _ _ hheader
    exact (checkPdu_accepts_congr hlen hdrop).mpr ⟨fwd, hm⟩
  · have hsame : c.region n.bytes = c.region m.bytes := by
      rw [region_modify (by omega), List.modify_eq_self (by rw [region_length]; omega)]
    have hchanged : c.trailer n.bytes ≠ c.trailer m.bytes := by
      rw [trailer_modify_in htrailer]
      exact modify_flip_ne (by rw [trailer_eq, List.length_drop]; omega) hj
    rw [hreject, hsame, hcrc]
    refine fun he => hchanged (readTrailer_injective c ?_ he.symm)
    rw [trailer_eq, trailer_eq, List.length_drop, List.length_drop, hlen]
  · rw [hreject, trailer_modify_before hbefore, ← hcrc, region_modify hregion]
    exact singleBitFlipChangesCrc c _ _ j hv (by rw [region_length]; omega) hj

end Sys2Proof.Machine
end

section
/-! PROOFS. The register interface: what the reads and writes answer and change, the STATUS values
that can be observed (R188), the order of Validate's tests (R197), CONSTRUCT (R196), and the operation
that a step runs (R180, R217). -/

namespace Sys2Proof.Machine

/-! ### Reads and writes -/

/-- Settles O3: each is the read of a register index below 6, which answers with that register. -/
theorem configReadsReturnWholeRegisters : Obligations.ConfigReadsReturnWholeRegisters := fun s =>
  ⟨exec_readOf_eq s 0, exec_readOf_eq s 1, exec_readOf_eq s 2, exec_readOf_eq s 3,
    exec_readOf_eq s 4, exec_readOf_eq s 5⟩

/-- Settles O4: RD_CMD is the read of register index 6. -/
theorem cmdReadsZero : Obligations.CmdReadsZero := fun s => exec_readOf_eq s 6

/-- Settles O8: each of the six writes is a CfgWrite, which stores in UNCONFIGURED and is ignored
otherwise. -/
theorem configWritesStoreOnlyWhileUnconfigured :
    Obligations.ConfigWritesStoreOnlyWhileUnconfigured := by
  intro s v
  refine ⟨fun hs => ?_, fun hs => ?_⟩
  · have store (r : CfgReg) : (.next (s.cfgWrite r v) : Host.Outcome State Fault Refusal) =
        .next { s with cfg := s.cfg.set r v } :=
      congrArg _ (State.cfgWrite_of_unconfigured s r v hs)
    exact ⟨store .numBits, store .poly, store .init, store .xorout, store .flags, store .skip⟩
  · have ignore (r : CfgReg) : (.next (s.cfgWrite r v) : Host.Outcome State Fault Refusal) =
        .next s := congrArg _ (State.cfgWrite_of_configured s r v hs)
    exact ⟨ignore .numBits, ignore .poly, ignore .init, ignore .xorout, ignore .flags,
      ignore .skip⟩

/-- Settles O9: 0x87 is the header of a write to register index 7, and WR_STATUS discards its DATA. -/
theorem statusWriteHasNoEffect : Obligations.StatusWriteHasNoEffect := fun _ v =>
  ⟨decode_write 7 v, rfl⟩

/-! ### Validate and CONSTRUCT -/

/-- RSVD in numbers: FLAGS without its four flag bits (R28). -/
theorem CfgRegs.toNat_flagsRsvd (c : CfgRegs) : c.flagsRsvd.toNat = c.flags.toNat / 16 := by
  have hlt := c.flags.isLt
  rw [flagsRsvd, BitVec.extractLsb'_toNat, Nat.shiftRight_eq_div_pow]
  exact Nat.mod_eq_of_lt (by omega)

theorem CfgRegs.flagsRsvd_eq_zero_iff_lt (c : CfgRegs) : c.flagsRsvd = 0 ↔ c.flags.toNat < 16 := by
  rw [← BitVec.toNat_inj, toNat_flagsRsvd]
  exact Nat.div_eq_zero_iff_lt (by decide)

/-- The four answers of Validate, each with the tests that lead to it (R197). -/
theorem validate_cases (c : CfgRegs) :
    (¬ 8 ∣ c.numBits.toNat ∧ validate c = .numBitsNotMultipleOf8) ∨
    (8 ∣ c.numBits.toNat ∧ (c.numBits.toNat < 8 ∨ 64 < c.numBits.toNat) ∧
      validate c = .numBitsOutOfRange) ∨
    (8 ∣ c.numBits.toNat ∧ 8 ≤ c.numBits.toNat ∧ c.numBits.toNat ≤ 64 ∧ 16 ≤ c.flags.toNat ∧
      validate c = .flagsReservedNonzero) ∨
    (8 ∣ c.numBits.toNat ∧ 8 ≤ c.numBits.toNat ∧ c.numBits.toNat ≤ 64 ∧ c.flags.toNat < 16 ∧
      validate c = .none) := by
  have hrsvd_iff := c.flagsRsvd_eq_zero_iff_lt
  unfold validate
  split_ifs with hmod hrange hrsvd
  · exact .inl ⟨by omega, rfl⟩
  · exact .inr (.inl ⟨by omega, hrange, rfl⟩)
  · have hflags := not_lt.mp (mt hrsvd_iff.mpr hrsvd)
    exact .inr (.inr (.inl ⟨by omega, by omega, by omega, hflags, rfl⟩))
  · have hflags := hrsvd_iff.mp (not_not.mp hrsvd)
    exact .inr (.inr (.inr ⟨by omega, by omega, by omega, hflags, rfl⟩))

/-- Settles O12: the tests that lead to the four answers exclude each other. -/
theorem validateReturnsTheFirstCause : Obligations.ValidateReturnsTheFirstCause := by
  intro c
  rcases validate_cases c with ⟨hmod, e⟩ | ⟨hmod, hrange, e⟩ | ⟨hmod, hlow, hhigh, hflags, e⟩ |
    ⟨hmod, hlow, hhigh, hflags, e⟩ <;>
  · simp only [e, reduceCtorEq, true_iff, false_iff]
    omega

/-- A validation with a cause leads to CONFIG_ERROR with it (R196). -/
theorem exec_construct_of_cause {s : State} (h : s.lifecycle = .unconfigured)
    (hc : validate s.cfg ≠ .none) :
    exec .construct s = .next (s.setStatus .configError (validate s.cfg)) := by
  rw [exec_construct_of_unconfigured h, (Cause.outcome_eq_configError_iff _).mp hc]

/-- Settles O13: 0x86 is the header of a write to register index 6, and CONSTRUCT takes the outcome of
Validate in UNCONFIGURED only. -/
theorem constructValidatesOnce : Obligations.ConstructValidatesOnce := by
  refine ⟨decode_write 6 1, fun s => ⟨fun hs hv => ?_, exec_construct_of_cause,
    exec_construct_of_configured⟩⟩
  rw [exec_construct_of_unconfigured hs, hv]
  rfl

/-! ### The values of STATUS -/

theorem statusWord_eq (l : Lifecycle) (c : Cause) :
    statusWord l c = BitVec.ofNat 64 (c.code * 16 + l.code) := by
  cases l <;> cases c <;> decide

/-- The STATUS values of R188. -/
def statusValues : List Word := [0x00#64, 0x01#64, 0x12#64, 0x22#64, 0x32#64]

/-- With CAUSE other than NONE exactly in CONFIG_ERROR, STATUS has one of the five values (R33). -/
theorem statusWord_mem_statusValues {l : Lifecycle} {c : Cause}
    (h : c ≠ .none ↔ l = .configError) : statusWord l c ∈ statusValues := by
  revert h
  cases l <;> cases c <;> decide

/-- A value of STATUS that some schedule placed at power-on leads to (R188, log entry 4). -/
def StatusObservable (v : Word) : Prop :=
  ∃ (ms : List Move) (k : Nat) (t : State), run k (State.reset.withMoves ms) = .next t ∧ t.status = v

/-- Every run from power-on keeps CAUSE and STATE together, so it shows no other value. -/
theorem StatusObservable.mem_statusValues {v : Word} (h : StatusObservable v) :
    v ∈ statusValues := by
  obtain ⟨ms, k, t, hrun, rfl⟩ := h
  obtain ⟨hcause, -⟩ := everyRunFromPowerOnKeepsCauseAndStateTogether ms k t hrun
  exact statusWord_mem_statusValues hcause

theorem statusObservable_zero : StatusObservable 0x00#64 := ⟨[], 0, _, rfl, by decide⟩

/-- The step of CONSTRUCT in UNCONFIGURED (R196). -/
theorem step_construct {s : State} {rest : List Move} (hm : s.moves = constructMove :: rest)
    (hs : s.lifecycle = .unconfigured) :
    step s =
      .next ((s.withMoves rest).setStatus (validate s.cfg).outcome (validate s.cfg)) :=
  (step_move hm).trans ((issueReg_instr (decode_write 6 1) _).trans
    (exec_construct_of_unconfigured (s := s.withMoves rest) hs))

/-- Configuration writes and a CONSTRUCT after power-on show the validation of what was written. -/
theorem statusObservable_of_writes (ws : List (CfgReg × Word)) {r : Cause}
    (hr : validate (CfgRegs.reset.setAll ws) = r) : StatusObservable (statusWord r.outcome r) := by
  subst hr
  exact ⟨ws.map cfgWriteMove ++ [constructMove], 1 + ws.length, _,
    (run_cfgWrites rfl ws 1 [constructMove]).trans (run_succ_next 0 (step_construct rfl rfl)), rfl⟩

/-- Each of the five values is observed: 0x00 at power-on, and the others after CONSTRUCT with the
legal width 8, with the widths 1 and 0, and with a reserved flag set. -/
theorem statusObservable_of_mem {v : Word} (h : v ∈ statusValues) : StatusObservable v := by
  simp only [statusValues, List.mem_cons, List.not_mem_nil, or_false] at h
  rcases h with rfl | rfl | rfl | rfl | rfl
  · exact statusObservable_zero
  · exact statusObservable_of_writes [(.numBits, 8)] (r := .none) (by decide)
  · exact statusObservable_of_writes [(.numBits, 1)] (r := .numBitsNotMultipleOf8) (by decide)
  · exact statusObservable_of_writes [] (r := .numBitsOutOfRange) (by decide)
  · exact statusObservable_of_writes [(.numBits, 8), (.flags, 16)] (r := .flagsReservedNonzero)
      (by decide)

/-- Settles O5: RD_STATUS answers with the STATUS word, the invariant of CAUSE and STATE leaves five
values, and a schedule leads to each. -/
theorem statusReadAndItsFiveValues : Obligations.StatusReadAndItsFiveValues := by
  refine ⟨fun s => ?_, fun v => ⟨StatusObservable.mem_statusValues, statusObservable_of_mem⟩⟩
  rw [← statusWord_eq]
  exact exec_readOf_eq s 7

/-! ### The operation that a step runs -/

/-- The check step is SUBMIT of the head of IN (R150). -/
theorem checkHead_cons {s : State} {m : Message} {q : List Message} (hq : s.inQ = m :: q) :
    checkHead s = exec (.submit m) s := by
  rw [checkHead, hq]

/-- An offered message that decodes to an operation is appended to IN (R37). -/
theorem offerPdu_instr {m : Message} {i : Instr} (hi : decode (.pdu m) = .instr i) (s : State) :
    offerPdu m s = .next (s.appendIn m) := by
  rw [offerPdu, hi]

/-- Settles O43: a step runs the first move of the schedule, or the check when there is none. -/
theorem stepRunsTheDecodedOperation : Obligations.StepRunsTheDecodedOperation := by
  refine ⟨fun s h d i rest hm hi => ?_, fun s m q rest hm hq => ?_, fun s m q hm hq => ?_,
    fun s m rest hm hi => ?_, fun s rest hm => step_move hm, fun s rest hm => step_move hm⟩
  · exact (step_move hm).trans (issueReg_instr hi _)
  · exact (step_move hm).trans (checkHead_cons (s := s.withMoves rest) hq)
  · exact (step_idle hm).trans (checkHead_cons hq)
  · exact (step_move hm).trans (offerPdu_instr hi _)

end Sys2Proof.Machine
end

section
/-! PROOFS. Waits, refusals and stuck states: the check step that is not enabled (R214, R227), the
moves that complete (R210, R219), the three refusals (R215), and a block in CONFIG_ERROR (R212). -/

namespace Sys2Proof.Machine

/-! ### The check that is not enabled -/

/-- Settles O29: the check of the head of IN waits, as a move and as the step with no move pending,
and so does SUBMIT. -/
theorem checkWaitsUnlessEnabled : Obligations.CheckWaitsUnlessEnabled := by
  refine ⟨fun s rest hw hm => ?_, fun s hw hm => ?_, fun s m hw => execSubmit_waits hw⟩
  · exact (step_move hm).trans (checkHead_waits (s := s.withMoves rest) hw)
  · exact (step_idle hm).trans (checkHead_waits hw)

/-! ### The moves that complete -/

/-- Every operation answers a next state in every state (R210, R219). -/
theorem exec_completes (i : Instr) (s : State) : ∃ t, exec i s = .next t := by
  cases i with
  | rdNumBits | rdPoly | rdInit | rdXorout | rdFlags | rdSkip | rdCmd | rdStatus => exact ⟨_, rfl⟩
  | wrNumBits v | wrPoly v | wrInit v | wrXorout v | wrFlags v | wrSkip v | wrStatus v =>
    exact ⟨_, rfl⟩
  | construct =>
    by_cases hl : s.lifecycle = .unconfigured
    · exact ⟨_, exec_construct_of_unconfigured hl⟩
    · exact ⟨_, exec_construct_of_configured hl⟩
  | submit m =>
    rcases execSubmit_cases m s with ⟨_, e⟩ | ⟨_, _, _, _, _, e⟩ <;> exact ⟨_, e⟩

theorem checkHead_completes (s : State) : ∃ t, checkHead s = .next t :=
  runMove_of_defined (m := .check) trivial s

/-- A move completes exactly when it has a meaning, whatever the state is (R162, R215). -/
theorem runMove_completes_iff (m : Move) (s : State) :
    (∃ t, runMove m s = .next t) ↔ m.Defined := by
  refine ⟨fun ⟨t, ht⟩ => ?_, fun hm => runMove_of_defined hm s⟩
  cases m with
  | reg h d =>
    cases hd : decodeReg h d with
    | instr i => exact ⟨i, hd⟩
    | reject r => nomatch (issueReg_reject hd s).symm.trans ht
  | append msg =>
    rcases offerPdu_cases msg s with ⟨hm, _⟩ | ⟨_, e⟩
    · exact hm
    · nomatch e.symm.trans ht
  | check | removeOk | removeFail | reset => trivial

/-- Settles O44: a step is the check of the head of IN, which completes, or one move, which
completes exactly when it has a meaning. -/
theorem everyDefinedMoveAnswersANextState : Obligations.EveryDefinedMoveAnswersANextState := by
  refine ⟨exec_completes, fun s => ?_⟩
  cases hm : s.moves with
  | nil =>
    rw [step_idle hm]
    exact iff_of_true (checkHead_completes s) nofun
  | cons m rest =>
    rw [step_move hm, runMove_completes_iff]
    exact ⟨fun hdef _ _ e => (List.cons.inj e).1 ▸ hdef, fun hall => hall m rest rfl⟩

/-! ### The three refusals -/

/-- A write frame is refused exactly for a write to CMD of DATA other than 1 (R106). -/
theorem writeOf_eq_reject_iff {j : BitVec 3} {d : Word} {r : Reject} :
    writeOf j d = .reject r ↔ j = 6 ∧ d ≠ 1 ∧ r = .reservedCommand := by
  constructor
  · intro hw
    rcases idx_cases j with ⟨q, rfl⟩ | rfl | rfl
    · obtain ⟨i, hi, _⟩ := exec_writeOf_idx q d
      nomatch hi.symm.trans hw
    · rw [writeOf_cmd] at hw
      split at hw <;> cases hw
      exact ⟨rfl, ‹_›, rfl⟩
    · nomatch hw
  · rintro ⟨rfl, hd, rfl⟩
    exact if_neg hd

/-- The moves that the model refuses, each with its reason (R215). -/
inductive Move.RefusedFor : Move → Refusal → Prop where
  | reservedHeader {h : Header} (d : Word) (hr : h.rsvd ≠ 0) : RefusedFor (.reg h d) .reservedHeader
  | reservedCommand {d : Word} (hd : d ≠ 1) : RefusedFor (.reg 0x86#8 d) .reservedCommand
  | pduTooLong {m : Message} (hm : Config.maxPduBytes < m.bytes.length) :
      RefusedFor (.append m) .pduTooLong

/-- The decoder's reason for a frame of the register port is one of the refused moves. -/
theorem Move.refusedFor_of_reject {h : Header} {d : Word} {r : Reject}
    (hr : decodeReg h d = .reject r) : (Move.reg h d).RefusedFor (Refusal.ofReject r) := by
  rcases decodeReg_cases h d with ⟨hrsvd, e⟩ | ⟨_, e⟩ | ⟨hh, e⟩
  · cases e.symm.trans hr
    exact .reservedHeader d hrsvd
  · nomatch e.symm.trans hr
  · obtain ⟨hidx, hd, rfl⟩ := writeOf_eq_reject_iff.mp (e.symm.trans hr)
    obtain rfl : h = 0x86#8 := by rw [hh, hidx]; rfl
    exact .reservedCommand hd

/-- A move is refused in the three cases of R215 only, whatever the state is. -/
theorem runMove_eq_refused_iff (m : Move) (s : State) (r : Refusal) :
    runMove m s = .refused r ↔ m.RefusedFor r := by
  constructor
  · intro he
    cases m with
    | reg h d =>
      cases hd : decodeReg h d with
      | reject j =>
        cases (issueReg_reject hd s).symm.trans he
        exact Move.refusedFor_of_reject hd
      | instr i =>
        obtain ⟨t, ht⟩ := runMove_of_defined (m := .reg h d) ⟨i, hd⟩ s
        nomatch ht.symm.trans he
    | append msg =>
      rcases offerPdu_cases msg s with ⟨_, e⟩ | ⟨hlong, e⟩ <;> cases e.symm.trans he
      exact .pduTooLong hlong
    | check =>
      obtain ⟨t, ht⟩ := checkHead_completes s
      nomatch ht.symm.trans he
    | removeOk | removeFail | reset => nomatch he
  · rintro (⟨d, hr⟩ | hd | hlong)
    · exact issueReg_reject ((decodeReg_eq_reservedHeader_iff _ d).mpr hr) s
    · exact issueReg_reject ((decode_write 6 _).trans (if_neg hd)) s
    · rcases offerPdu_cases _ s with ⟨hshort, _⟩ | ⟨_, e⟩
      · exact absurd hlong hshort.not_gt
      · exact e

/-- A step is refused exactly for the next move of the schedule (log entry 4). -/
theorem step_eq_refused_iff (s : State) (r : Refusal) :
    step s = .refused r ↔ ∃ m rest, s.moves = m :: rest ∧ m.RefusedFor r := by
  cases hm : s.moves with
  | nil =>
    obtain ⟨t, ht⟩ := checkHead_completes s
    rw [step_idle hm, ht]
    exact iff_of_false nofun nofun
  | cons m rest =>
    rw [step_move hm, runMove_eq_refused_iff]
    exact ⟨fun hr => ⟨m, rest, rfl, hr⟩, fun ⟨_, _, e, hr⟩ => (List.cons.inj e).1 ▸ hr⟩

/-- A run ends at its first refusal, so more steps change nothing (log entry 6). -/
theorem run_add_of_refused {k : Nat} {s : State} {r : Refusal} (h : run k s = .refused r)
    (j : Nat) : run (k + j) s = .refused r := by
  induction k generalizing s with
  | zero => nomatch h
  | succ k ih =>
    rw [Nat.succ_add]
    cases he : step s with
    | next t =>
      rw [run_succ_next _ he] at h ⊢
      exact ih h
    | refused q =>
      rw [run_succ_refused _ he] at h ⊢
      exact h
    | fault f => nomatch f

/-- Settles O45: the refused moves are those of the three cases, and a run ends at its first
refusal. -/
theorem refusalInExactlyThreeCasesAndSticky : Obligations.RefusalInExactlyThreeCasesAndSticky := by
  refine ⟨fun s r => (step_eq_refused_iff s r).trans ⟨?_, ?_⟩,
    fun _ _ _ j h => run_add_of_refused h j⟩
  · rintro ⟨_, rest, hm, ⟨d, hr⟩ | hd | hlong⟩
    · exact .inl ⟨_, d, rest, hm, hr, rfl⟩
    · exact .inr (.inl ⟨_, rest, hm, hd, rfl⟩)
    · exact .inr (.inr ⟨_, rest, hm, hlong, rfl⟩)
  · rintro (⟨h, d, rest, hm, hr, rfl⟩ | ⟨d, rest, hm, hd, rfl⟩ | ⟨m, rest, hm, hlong, rfl⟩)
    · exact ⟨_, rest, hm, .reservedHeader d hr⟩
    · exact ⟨_, rest, hm, .reservedCommand hd⟩
    · exact ⟨_, rest, hm, .pduTooLong hlong⟩

/-! ### A block in CONFIG_ERROR -/

/-- Between `s` and `t` the block took nothing from IN and emitted nothing: IN grew at the tail at
most, and OK and FAIL lost messages at the head at most. -/
structure NothingChecked (s t : State) : Prop where
  inQ : s.inQ <+: t.inQ
  okQ : t.okQ <:+ s.okQ
  failQ : t.failQ <:+ s.failQ

theorem NothingChecked.refl (s : State) : NothingChecked s s :=
  ⟨List.prefix_rfl, List.suffix_rfl, List.suffix_rfl⟩

theorem NothingChecked.trans {s u t : State} (h₁ : NothingChecked s u) (h₂ : NothingChecked u t) :
    NothingChecked s t :=
  ⟨h₁.inQ.trans h₂.inQ, h₂.okQ.trans h₁.okQ, h₂.failQ.trans h₁.failQ⟩

/-- With STATE other than READY only the other agents change the channels (R212, R214). -/
theorem MoveEffect.nothingChecked {u t : State} {m : Move} (he : MoveEffect u m t)
    (hl : u.lifecycle ≠ .ready) : NothingChecked u t where
  inQ := by
    rcases he.inQ_cases with e | ⟨msg, _, e⟩ | ⟨⟨hr, _⟩, _⟩
    · exact e ▸ List.prefix_rfl
    · exact e ▸ List.prefix_append _ _
    · exact absurd hr hl
  okQ := by
    rcases he.okQ_cases with e | ⟨⟨hr, _⟩, _⟩ | ⟨_, e⟩
    · exact e ▸ List.suffix_rfl
    · exact absurd hr hl
    · exact e ▸ List.tail_suffix _
  failQ := by
    rcases he.failQ_cases with e | ⟨⟨hr, _⟩, _⟩ | ⟨_, e⟩
    · exact e ▸ List.suffix_rfl
    · exact absurd hr hl
    · exact e ▸ List.tail_suffix _

theorem step_nothingChecked {s t : State} (h : step s = .next t) (hl : s.lifecycle ≠ .ready) :
    NothingChecked s t := by
  obtain ⟨hin, hok, hfail⟩ := (step_moveEffect h).nothingChecked hl
  exact ⟨hin, hok, hfail⟩

/-- Every run without RESET from CONFIG_ERROR keeps the block frozen and checks nothing: the frozen
STATE is not READY at any of its steps. -/
theorem run_configError {k : Nat} {s t : State} (hl : s.lifecycle = .configError)
    (hno : .reset ∉ s.moves) (h : run k s = .next t) : Frozen s t ∧ NothingChecked s t := by
  refine run_induction (P := fun u => Frozen s u ∧ NothingChecked s u) ?_ k s t
    ⟨⟨⟨rfl, rfl, rfl⟩, hno⟩, .refl s⟩ h
  rintro u v ⟨hfrozen, hnothing⟩ hstep
  have hu : u.lifecycle ≠ .ready := by
    obtain ⟨-, hlife, -⟩ := hfrozen.same
    simp [hlife, hl]
  exact ⟨hfrozen.step (by simp [hl]) hstep, hnothing.trans (step_nothingChecked hstep hu)⟩

/-- Settles O51: every step from CONFIG_ERROR leaves the block frozen and checks nothing. -/
theorem configErrorConsumesNothing : Obligations.ConfigErrorConsumesNothing := by
  intro k s t hl hno h
  obtain ⟨⟨⟨hcfg, hlife, hcause⟩, -⟩, hin, hok, hfail⟩ := run_configError hl hno h
  exact ⟨hlife.trans hl, hcause, hcfg, hin, hok, hfail⟩

end Sys2Proof.Machine
end

section
/-! PROOFS. RESET, the order of the configuration writes before CONSTRUCT, and what becomes of the
messages that wait in IN (R240 to R255). -/

namespace Sys2Proof.Machine

/-! ### RESET -/

/-- Settles O2: RESET is a move of its own, and no other move touches the configuration or STATUS of
a block that has left UNCONFIGURED. -/
theorem resetIsTheOnlyWayOut : Obligations.ResetIsTheOnlyWayOut := by
  refine ⟨fun s rest hm => step_move hm, fun s t h hl hno => ?_⟩
  refine step_sameCfgStatus h hl fun hreset => ?_
  obtain ⟨rest, hm⟩ := State.moves_of_nextMove hreset nofun
  exact hno rest hm

/-! ### The end of a run -/

/-- Settles O58: with no move pending an empty IN ends the run, and a message in IN waits for
READY. -/
theorem overStuckOrEnabled : Obligations.OverStuckOrEnabled := by
  intro s hm
  have hover : s.Over ↔ s.inQ = [] := ⟨fun ⟨_, hq, _⟩ => hq, State.over_of_idle hm⟩
  refine ⟨hover, fun ⟨hq, _⟩ ho => hq (hover.mp ho), fun hno hns => ?_⟩
  have hq : s.inQ ≠ [] := mt hover.mpr hno
  have hl : s.lifecycle = .ready := not_not.mp fun hl => hns ⟨hq, hl⟩
  simp [State.checkEnabled, hl, hq]

/-! ### The configuration writes in any order -/

/-- The configuration registers in the order of IDX (R22). -/
def cfgRegs : List CfgReg := [.numBits, .poly, .init, .xorout, .flags, .skip]

/-- The word that a configuration holds for a register, with the register. -/
def CfgRegs.entry (c : CfgRegs) (r : CfgReg) : CfgReg × Word := (r, c.get r)

theorem configWrites_eq_map (c : CfgRegs) :
    configWrites c = cfgRegs.map fun r => cfgWriteMove (c.entry r) := rfl

/-- Two writes of words of one configuration may change places. -/
theorem CfgRegs.set_get_comm (c d : CfgRegs) (q r : CfgReg) :
    (d.set q (c.get q)).set r (c.get r) = (d.set r (c.get r)).set q (c.get q) := by
  cases q <;> cases r <;> rfl

/-- The six words of a configuration, written in any order, give that configuration (R244). -/
theorem CfgRegs.setAll_of_perm (c d : CfgRegs) {rs : List CfgReg} (h : rs.Perm cfgRegs) :
    d.setAll (rs.map c.entry) = c := by
  calc d.setAll (rs.map c.entry)
      = rs.foldl (fun e r => e.set r (c.get r)) d := List.foldl_map
    _ = cfgRegs.foldl (fun e r => e.set r (c.get r)) d :=
        h.foldl_eq' (fun q _ r _ e => c.set_get_comm e q r) d
    _ = c := rfl

/-- A reordered image of a list is the image of a reordered list. -/
theorem exists_map_eq_of_perm_map {α β : Type} {f : α → β} {ms : List β} {l : List α}
    (h : ms.Perm (l.map f)) : ∃ rs : List α, rs.Perm l ∧ ms = rs.map f := by
  have himage : List.Forall₂ (fun b a => b = f a) (l.map f) l :=
    List.forall₂_map_left_iff.mpr (List.forall₂_same.mpr fun _ _ => rfl)
  obtain ⟨rs, hms, hrs⟩ := List.perm_comp_forall₂ h himage
  exact ⟨rs, hrs, List.forall₂_eq_eq_eq ▸ List.forall₂_map_right_iff.mpr hms⟩

/-- A block configured with `c` by a CONSTRUCT that was the last move pending. -/
def State.configured (s : State) (c : CfgRegs) : State :=
  { s with cfg := c, lifecycle := (validate c).outcome, cause := validate c, moves := [] }

/-- CONSTRUCT as the one pending move configures the block with what its registers hold (R196). -/
theorem run_construct {s : State} (hs : s.lifecycle = .unconfigured)
    (hm : s.moves = [constructMove]) (k : Nat) : run (k + 1) s = run k (s.configured s.cfg) :=
  run_succ_next k (step_construct hm hs)

/-- From UNCONFIGURED the six writes of a configuration in any order, and CONSTRUCT, configure the
block with it (R244). -/
theorem run_configure {s : State} (hs : s.lifecycle = .unconfigured) {c : CfgRegs} {ms : List Move}
    (hms : ms.Perm (configWrites c)) (k : Nat) :
    run (k + 7) (s.withMoves (ms ++ [constructMove])) = run k (s.configured c) := by
  obtain ⟨rs, hrs, rfl⟩ := exists_map_eq_of_perm_map (configWrites_eq_map c ▸ hms)
  have hlen : (rs.map c.entry).length = 6 := (List.length_map _).trans hrs.length_eq
  have hwrites := run_cfgWrites hs (rs.map c.entry) (k + 1) [constructMove]
  rw [List.map_map, hlen, c.setAll_of_perm s.cfg hrs] at hwrites
  exact hwrites.trans (run_construct (s := { s with cfg := c, moves := [constructMove] }) hs rfl k)

/-- Settles O15: after power-on the writes configure the block, whatever their order is. -/
theorem bootWritesInAnyOrderThenConstruct : Obligations.BootWritesInAnyOrderThenConstruct := by
  intro c ms hms
  refine ⟨_, run_configure (s := State.reset) rfl hms 0, rfl, rfl, ?_, rfl⟩
  cases hv : validate c <;> simp [State.configured, hv, Cause.outcome]

/-! ### The messages that wait in IN -/

/-- A step that changes nothing is repeated for ever (R227). -/
theorem run_of_step_self {s : State} (h : step s = .next s) (k : Nat) : run k s = .next s := by
  induction k with
  | zero => rfl
  | succ k ih => rw [run_succ_next k h, ih]

/-- A block with a legal configuration checks every message of IN under it (R248). -/
theorem run_configured_drains (s : State) {c : CfgRegs} (hv : validate c = .none) :
    run s.inQ.length (s.configured c) = .next (s.configured c).drained :=
  run_drains ((Cause.outcome_eq_ready_iff _).mpr hv) rfl le_rfl

/-- The block after a construction with a legal configuration and a check of every message of IN. -/
theorem State.configured_drained (s : State) {c : CfgRegs} (hv : validate c = .none) :
    (s.configured c).drained = { s with
      cfg := c, lifecycle := .ready, cause := .none, inQ := [], moves := []
      okQ := s.okQ ++ acceptedOf c s.inQ
      failQ := s.failQ ++ rejectedOf c s.inQ } := by
  simp [configured, drained, hv, Cause.outcome]

/-- A block with an illegal configuration leaves every message in IN (R214). -/
theorem run_configured_waits (s : State) {c : CfgRegs} (hv : validate c ≠ .none) (k : Nat) :
    run k (s.configured c) = .next (s.configured c) := by
  have hl : (s.configured c).lifecycle ≠ .ready := mt (Cause.outcome_eq_ready_iff _).mp hv
  exact run_of_step_self ((step_idle rfl).trans (checkHead_waits (.inl hl))) k

/-- Settles O55: CONSTRUCT configures the block, and then IN drains or waits. -/
theorem waitingPdusAreCheckedAfterConstruct : Obligations.WaitingPdusAreCheckedAfterConstruct := by
  refine fun s hs hm => ⟨fun hv => ?_, fun hv k => ?_⟩
  · rw [Nat.add_comm, run_construct hs hm, run_configured_drains s hv, s.configured_drained hv]
  · rw [Nat.add_comm, run_construct hs hm, run_configured_waits s hv, State.configured,
      (Cause.outcome_eq_configError_iff _).mp hv]

/-- From UNCONFIGURED, a schedule that configures a legal configuration checks every message of IN
under it (R244, R248). -/
theorem run_configure_drains {s : State} (hs : s.lifecycle = .unconfigured) {c : CfgRegs}
    (hv : validate c = .none) :
    run (s.inQ.length + 7) (s.withMoves (configWrites c ++ [constructMove])) =
      .next (s.configured c).drained :=
  (run_configure hs (.refl _) _).trans (run_configured_drains s hv)

/-- Settles O56: RESET keeps the channels and leads to UNCONFIGURED, and the rest of the schedule
configures the block. -/
theorem resetRechecksWaitingPdusUnderNewConfiguration :
    Obligations.ResetRechecksWaitingPdusUnderNewConfiguration := by
  intro s c hv hm
  have hreset : step s = .next (s.resetBlock.withMoves (configWrites c ++ [constructMove])) :=
    step_move hm
  have hlen : 8 + s.inQ.length = s.inQ.length + 7 + 1 := by omega
  rw [hlen, run_succ_next _ hreset]
  exact (run_configure_drains (s := s.resetBlock) rfl hv).trans
    (congrArg _ (s.resetBlock.configured_drained hv))

/-- Settles O60: a clean entry is UNCONFIGURED with OK and FAIL empty, and with IN drained the run
is over. -/
theorem cleanEntryRunsToItsEnd : Obligations.CleanEntryRunsToItsEnd := by
  intro s c hs hv hm
  have hentry : s = (entryWith s.inQ []).withMoves (configWrites c ++ [constructMove]) :=
    hm ▸ hs.starts
  have hrun : run (7 + s.inQ.length) s = .next ((entryWith s.inQ []).configured c).drained := by
    rw [Nat.add_comm]
    exact hentry ▸ run_configure_drains (s := entryWith s.inQ []) rfl hv
  refine ⟨_, hrun, State.over_of_idle rfl rfl, rfl, ?_, rfl, rfl⟩
  rw [State.configured_drained _ hv]
  exact (by decide : statusWord .ready .none = 1)

end Sys2Proof.Machine
end
